-- ==== Sys2Proof/Word.lean ====
section
/-!
DEFINITION. The word types of the Spongent AEAD core. Every value of this hardware is unsigned, bit 0 is the least
significant bit, and arithmetic wraps at the stated width (00_scope R10, R13).
-/

namespace Sys2Proof

/-- One byte of a buffer, of the key or of the tag. -/
abbrev Byte := BitVec 8

/-- One register, and one command word: 32 bits (10_state R20, 30_encoding R90). -/
abbrev Word := BitVec 32

/-- A byte offset within the 16 KiB window, as the slave port receives it (20_memory R60, R62). -/
abbrev Offset := BitVec 14

/-- The permutation state `S`, `N = 176` bits (00_scope R7, R10; 10_state R41). -/
abbrev Sponge := BitVec 176

/-- One padded block: the formatter always makes blocks of `RB` bytes (41_padding R150). -/
abbrev Block := List Byte

end Sys2Proof
end

