-- ==== Sys2Proof/Syntax.lean ====
section
/-!
DEFINITION. The commands: one constructor per row of spec/opcode_table.json. Every command is one 32-bit word written
to CMD (30_encoding R90). Each constructor keeps the TLEN field, also where the command ignores it (R92), so that no
bit of an encoding is dropped.
-/

namespace Sys2Proof

/-- A command word, decoded (30_encoding R90, R91, R93). -/
inductive Instr where
  /-- OP = 0x0, 44_control R230. -/
  | nop (tlen : Byte)
  /-- OP = 0x1, 43_aead R200. -/
  | wrap (tlen : Byte)
  /-- OP = 0x2, 43_aead R210. -/
  | unwrap (tlen : Byte)
  /-- OP = 0x3, 43_aead R220. -/
  | mac (tlen : Byte)
  /-- OP = 0x4, 44_control R232. -/
  | clear (tlen : Byte)
  /-- OP = 0x5, and below to 0xF: 44_control R234. -/
  | reserved5 (tlen : Byte)
  | reserved6 (tlen : Byte)
  | reserved7 (tlen : Byte)
  | reserved8 (tlen : Byte)
  | reserved9 (tlen : Byte)
  | reservedA (tlen : Byte)
  | reservedB (tlen : Byte)
  | reservedC (tlen : Byte)
  | reservedD (tlen : Byte)
  | reservedE (tlen : Byte)
  | reservedF (tlen : Byte)
  /-- A word with some reserved bit set, whatever its OP: 30_encoding R93, 43_aead R191. -/
  | reservedBits (op : BitVec 4) (rsv0 : BitVec 4) (tlen : Byte) (rsv1 : BitVec 16)
  deriving DecidableEq, Repr

/-- What `decode` of 30_encoding R96 answers: a Nop, or a command of which only OP and TLEN are kept. -/
inductive Presented where
  | nop
  | cmd (op : BitVec 4) (tlen : Byte)
  deriving DecidableEq, Repr

end Sys2Proof
end

