-- ==== Sys2Proof/WellFormed.lean ====
section
/-!
DEFINITION. Which terms of Instr stand for a command word. Every TLEN is an encoding; the row RESERVED_BITS is the
words with at least one reserved bit set (30_encoding R93), so a `reservedBits` term with both reserved fields zero
stands for no word of that row.
-/

namespace Sys2Proof

/-- The well-formed commands. -/
def Instr.wf : Instr → Bool
  | .nop _ | .wrap _ | .unwrap _ | .mac _ | .clear _ => true
  | .reserved5 _ | .reserved6 _ | .reserved7 _ | .reserved8 _ | .reserved9 _ => true
  | .reservedA _ | .reservedB _ | .reservedC _ | .reservedD _ | .reservedE _ | .reservedF _ => true
  | .reservedBits _ rsv0 _ rsv1 => rsv0 != 0 || rsv1 != 0

end Sys2Proof
end

