-- ==== Sys2Proof/Decode.lean ====
section
/-!
DEFINITION. The command word's fields, its decoder and its encoder (30_encoding R90 to R93, R96). The decoder is total:
every 32-bit word is a command, and too few bytes are refused by name.
-/

namespace Sys2Proof

/-! ## Fields (30_encoding R90) -/

/-- OP, bits 3..0. -/
def opField (w : Word) : BitVec 4 := w.extractLsb' 0 4

/-- RSV0, bits 7..4. -/
def rsv0Field (w : Word) : BitVec 4 := w.extractLsb' 4 4

/-- TLEN, bits 15..8. -/
def tlenField (w : Word) : Byte := w.extractLsb' 8 8

/-- RSV1, bits 31..16. -/
def rsv1Field (w : Word) : BitVec 16 := w.extractLsb' 16 16

/-- Some reserved bit of the word is set (30_encoding R93). -/
def hasReservedBits (w : Word) : Bool := rsv0Field w != 0 || rsv1Field w != 0

/-! ## Decoder -/

/-- The command that OP selects, for a word without reserved bits (30_encoding R91). -/
def decodeOp (op : BitVec 4) (tlen : Byte) : Instr :=
  match op.toNat with
  | 0x0 => .nop tlen
  | 0x1 => .wrap tlen
  | 0x2 => .unwrap tlen
  | 0x3 => .mac tlen
  | 0x4 => .clear tlen
  | 0x5 => .reserved5 tlen
  | 0x6 => .reserved6 tlen
  | 0x7 => .reserved7 tlen
  | 0x8 => .reserved8 tlen
  | 0x9 => .reserved9 tlen
  | 0xA => .reservedA tlen
  | 0xB => .reservedB tlen
  | 0xC => .reservedC tlen
  | 0xD => .reservedD tlen
  | 0xE => .reservedE tlen
  | _ => .reservedF tlen

/-- The command of a word. Reserved bits take precedence over OP (30_encoding R93; opcode_table.json, RESERVED_BITS). -/
def decodeWord (w : Word) : Instr :=
  if hasReservedBits w then .reservedBits (opField w) (rsv0Field w) (tlenField w) (rsv1Field w)
  else decodeOp (opField w) (tlenField w)

/-- `decode` of 30_encoding R96, as its pseudocode has it. -/
def present (w : Word) : Presented :=
  if rsv0Field w = 0 ∧ rsv1Field w = 0 ∧ opField w = 0 then .nop else .cmd (opField w) (tlenField w)

/-- Why a byte string holds no command: it ends before the word does. -/
inductive DecodeError where
  | truncated
  deriving DecidableEq, Repr

/-- A word from four bytes, the first the least significant (20_memory R65). -/
def wordOfBytes (b0 b1 b2 b3 : Byte) : Word :=
  b0.setWidth 32 ||| (b1.setWidth 32 <<< 8) ||| (b2.setWidth 32 <<< 16) ||| (b3.setWidth 32 <<< 24)

/-- A command from bytes as the port lays them out, the least significant byte first (20_memory R65), with the bytes
that follow it. Every command is exactly one word (30_encoding R90). -/
def decode : List Byte → Except DecodeError (Instr × List Byte)
  | b0 :: b1 :: b2 :: b3 :: rest => .ok (decodeWord (wordOfBytes b0 b1 b2 b3), rest)
  | _ => .error .truncated

/-! ## Encoder -/

/-- A word from its four fields (30_encoding R90). -/
def packWord (op rsv0 : BitVec 4) (tlen : Byte) (rsv1 : BitVec 16) : Word :=
  op.setWidth 32 ||| (rsv0.setWidth 32 <<< 4) ||| (tlen.setWidth 32 <<< 8) ||| (rsv1.setWidth 32 <<< 16)

/-- The word of a command. -/
def encodeWord : Instr → Word
  | .nop tlen => packWord 0x0 0 tlen 0
  | .wrap tlen => packWord 0x1 0 tlen 0
  | .unwrap tlen => packWord 0x2 0 tlen 0
  | .mac tlen => packWord 0x3 0 tlen 0
  | .clear tlen => packWord 0x4 0 tlen 0
  | .reserved5 tlen => packWord 0x5 0 tlen 0
  | .reserved6 tlen => packWord 0x6 0 tlen 0
  | .reserved7 tlen => packWord 0x7 0 tlen 0
  | .reserved8 tlen => packWord 0x8 0 tlen 0
  | .reserved9 tlen => packWord 0x9 0 tlen 0
  | .reservedA tlen => packWord 0xA 0 tlen 0
  | .reservedB tlen => packWord 0xB 0 tlen 0
  | .reservedC tlen => packWord 0xC 0 tlen 0
  | .reservedD tlen => packWord 0xD 0 tlen 0
  | .reservedE tlen => packWord 0xE 0 tlen 0
  | .reservedF tlen => packWord 0xF 0 tlen 0
  | .reservedBits op rsv0 tlen rsv1 => packWord op rsv0 tlen rsv1

/-- The four bytes of a word, least significant first (20_memory R65). -/
def wordBytes (w : Word) : List Byte :=
  [w.extractLsb' 0 8, w.extractLsb' 8 8, w.extractLsb' 16 8, w.extractLsb' 24 8]

/-- The bytes of a command, as the port lays them out. -/
def encode (i : Instr) : List Byte := wordBytes (encodeWord i)

/-! ## The opcode table's words -/

/-- The word of an opcode-table row given as a number; the bits above `nbits` are zero. -/
def tableWord (nbits w : Nat) : Word := BitVec.ofNat 32 (w % 2 ^ nbits)

/-- The command the decoder reads from a row's word, through its bytes. -/
def decodeTableWord (nbits w : Nat) : Option Instr :=
  match decode (wordBytes (tableWord nbits w)) with
  | .ok (i, _) => some i
  | .error _ => none

end Sys2Proof
end

