-- ==== Sys2Proof/Config.lean ====
section
/-!
DEFINITION. What one implementation fixes: the shape of the parameter record of 00_scope R7 with the constraints of
R8 (the active values stand in Machine/Parameters.lean), and the platform's OPEN parameters, which no rule gives a
value (92_eei_decisions, "Open parameters").
-/

namespace Sys2Proof

/-- The parameters a core is built with; exactly one set is active in a core, and no host action changes it
(00_scope R7, R9). -/
structure Params where
  /-- `N`, the permutation state's width in bits. -/
  n : Nat
  /-- `RATE` in bits. -/
  rate : Nat
  /-- `CAP` in bits. -/
  cap : Nat
  /-- `ROUNDS`. -/
  rounds : Nat
  /-- `SBOX`, indexed by the input nibble. -/
  sbox : List (BitVec 4)
  /-- `PWIRE`, the wiring: entry `j` is the place of input bit `j`. -/
  pwire : List Nat
  /-- `LFSR_W`. -/
  lfsrW : Nat
  /-- `LFSR_INIT`, the round counter in round 1. -/
  lfsrInit : BitVec 7
  /-- `LFSR_TAPS`, as the counter's bits whose exclusive-or is shifted in. -/
  lfsrTaps : List Nat
  /-- `KLEN`, the key's length in bytes. -/
  klen : Nat
  /-- `TLEN_FIX`, the tag's length in bytes. -/
  tlenFix : Nat
  /-- `AAD_MAX` in bytes. -/
  aadMax : Nat
  /-- `MSG_MAX` in bytes. -/
  msgMax : Nat
  dsKey : Byte
  dsAad : Byte
  dsText : Byte
  dsMac : Byte
  dsFinal : Byte
  /-- `PAD_BYTE`, the first padding byte. -/
  padByte : Byte
  /-- `ID_VALUE`. -/
  idValue : Word
  deriving DecidableEq, Repr

/-- `RB = RATE / 8`, the rate in bytes. -/
abbrev Params.rb (p : Params) : Nat := p.rate / 8

/-- `NB = N / 8`, the state's width in bytes. -/
abbrev Params.nb (p : Params) : Nat := p.n / 8

/-- The constraints of 00_scope R8, one conjunct each and in its order. -/
def Params.wf (p : Params) : Bool :=
  p.n == p.rate + p.cap
    && p.n % 8 == 0
    && (p.rate % 8 == 0 && 0 < p.rate && p.rate < p.n)
    && 8 * p.tlenFix ≤ p.cap
    && (p.klen == 16 && p.tlenFix == 16)
    && (p.lfsrW ≤ 8 && 2 * p.lfsrW ≤ p.n)
    && (1 ≤ p.aadMax && p.aadMax ≤ 4096)
    && (1 ≤ p.msgMax && p.msgMax ≤ 8192)

/-- `PWIRE` is a bijection on the bit positions (40_permutation R123). -/
def Params.wiringOk (p : Params) : Bool :=
  p.pwire.length == p.n && p.pwire.all (fun i => decide (i < p.n)) && decide p.pwire.Nodup

/-- The widths this model's types are built for: a parameter set of another width (256 among them) is rejected,
since no tables exist for it (93_implementation_defined I22, 90_conflicts C8), and so is one whose S-box or wiring is
no bijection. -/
def Params.supported (p : Params) : Bool :=
  p.wf && p.n == 176 && p.rate == 16 && p.lfsrW == 7 && p.sbox.length == 16 && decide p.sbox.Nodup && p.wiringOk

/-- Which 16 KiB page of the platform's address map the window occupies: an OPEN parameter (20_memory R62, D19). A
free value: nothing in Lean can evaluate it. -/
opaque Config.basePage : Nat

/-- `BASE`, the platform address of the window, aligned to 16 KiB (20_memory R62). -/
def Config.base : Nat := 0x4000 * Config.basePage

/-- `IRQ_LINE`, the platform interrupt that the `irq` pin drives: an OPEN parameter (60_exceptions R260, D29). A free
value: nothing in Lean can evaluate it. -/
opaque Config.irqLine : Nat

end Sys2Proof
end

