-- ==== Sys2Proof/Machine/State.lean ====
section
/-!
DEFINITION. The machine's state as plain data: the host-visible registers and buffers (10_state R20 to R39), the hidden
state (R41 to R44), the `rst` input (70_reset R280), what the port answered last, and the agenda, which holds what the
outside world does next and which agent moves next (00_scope R15, 20_memory R71). The reset state is 10_state R47.
-/

namespace Sys2Proof.Machine

/-- The result codes of 30_encoding R95, in its numbering. -/
inductive ResultCode where
  | success
  | fail
  | badHashBitLen
  | badTag
  /-- Never produced by the core (60_exceptions R252). -/
  | unknown
  deriving DecidableEq, Repr

/-- The controller's states (10_state R43). -/
inductive Fsm where
  | idle | check | key | aad | text | macmsg | final | squeeze | compare | writeback | zeroize
  deriving DecidableEq, Repr

/-- Four 32-bit words holding 16 bytes: KEY0 to KEY3, TAG0 to TAG3, and `TAGC` (10_state R36, R37, R43). -/
structure Quad where
  w0 : Word
  w1 : Word
  w2 : Word
  w3 : Word
  deriving DecidableEq, Repr

/-- One transaction on the slave port (20_memory R60). Only the low `8 * size` bits of `wdata` are driven. -/
inductive Transaction where
  | read (addr : Offset) (size : Nat)
  | write (addr : Offset) (size : Nat) (wdata : Word)
  deriving DecidableEq, Repr

/-- The response of a transaction (20_memory R60). -/
inductive Resp where
  | okay
  | error
  deriving DecidableEq, Repr

/-- What the port answers: the response, and for a read its data, zero-extended to a word (20_memory R60, R61). -/
structure BusReply where
  resp : Resp
  rdata : Option Word
  deriving DecidableEq, Repr

/-- One event of the total order of 20_memory R71. The agenda lists them oldest first, and so says which agent moves
next; both orders of a completion and a racing transaction are agendas (60_exceptions R258). -/
inductive Event where
  /-- A host's transaction reaches the port. -/
  | bus (t : Transaction)
  /-- The platform drives the `rst` input to this level. -/
  | rst (level : Bool)
  /-- The core takes its turn: its completion step, if that is enabled (00_scope R15). -/
  | core
  deriving DecidableEq, Repr

/-- The bytes of the AAD and MSG buffers by window offset; see `Memory.wf` for the canonical form. -/
abbrev Memory := List Host.Cell

/-- What the validation checks answer (43_aead R195). -/
inductive Validation where
  | ok
  | fail
  | badHashBitLen
  deriving DecidableEq, Repr

/-- The machine's state. -/
structure State where
  /-- STATUS.BUSY, 10_state R27. -/
  busy : Bool
  /-- STATUS.DONE, 10_state R28. -/
  done : Bool
  /-- STATUS.KEYMASK, 10_state R29. -/
  keymask : BitVec 4
  /-- RESULT.CODE, 10_state R30. -/
  result : ResultCode
  /-- IRQ_EN.DONE_IE, 10_state R31. -/
  doneIe : Bool
  /-- IRQ_STAT.DONE_IP, 10_state R32. -/
  doneIp : Bool
  /-- AAD_LEN, 10_state R34. -/
  aadLen : Word
  /-- MSG_LEN, 10_state R35. -/
  msgLen : Word
  /-- KEY0 to KEY3, 10_state R36. -/
  key : Quad
  /-- TAG0 to TAG3, 10_state R37. -/
  tag : Quad
  /-- The AAD and MSG buffers, 10_state R38, R39. -/
  mem : Memory
  /-- `S`, the sponge state, 10_state R41. -/
  sponge : Sponge
  /-- `LC`, the round counter, 10_state R42. -/
  lc : BitVec 7
  /-- `RIDX`, the round index, 10_state R42. -/
  ridx : Nat
  /-- `FSM`, 10_state R43. -/
  fsm : Fsm
  /-- `BIDX`, the block index within a phase, 10_state R43. -/
  bidx : Nat
  /-- `SQCNT`, the tag bytes squeezed, 10_state R43. -/
  sqcnt : Nat
  /-- `DIFF`, the tag-comparison accumulator, 10_state R43. -/
  diff : Byte
  /-- `TAGC`, the computed tag, 10_state R43. -/
  tagc : Quad
  /-- `CMDQ`, the accepted command word, 10_state R44. -/
  cmdq : Word
  /-- The level of the `rst` input, 70_reset R280. -/
  rst : Bool
  /-- The port's answer to the last transaction it took; none before the first. The model's own field. -/
  reply : Option BusReply
  /-- What happens next, oldest first. The model's own field. -/
  agenda : List Event
  deriving DecidableEq, Repr

/-- A quad of zero words. -/
def Quad.zero : Quad := { w0 := 0, w1 := 0, w2 := 0, w3 := 0 }

/-- The machine right after the reset sequence (10_state R47): every register zero, the FSM idle, every buffer byte 0,
and nothing on the agenda. -/
def State.reset : State :=
  { busy := false, done := false, keymask := 0, result := .success, doneIe := false, doneIp := false
    aadLen := 0, msgLen := 0, key := Quad.zero, tag := Quad.zero, mem := []
    sponge := 0, lc := 0, ridx := 0, fsm := .idle, bidx := 0, sqcnt := 0, diff := 0, tagc := Quad.zero, cmdq := 0
    rst := false, reply := none, agenda := [] }

/-- Why an access fails. -/
inductive Fault where
  /-- `raise BusError(addr)`: raised by `memRead` and `memWrite` for an unmapped or reserved offset, a wrong size, a
  misaligned offset, a narrow register access or a busy-refused access (60_exceptions R255). Safe: `step` turns it into
  the ERROR response and the machine goes on, so no step ends in it. -/
  | busError (addr : Offset)
  deriving DecidableEq, Repr

/-- Why an instruction has no meaning. -/
inductive Refusal where
  /-- Reserved for an arm of `exec` without a meaning; no arm of this model raises it. Safe: the machine stops. -/
  | notModelled (mnemonic : String)
  deriving DecidableEq, Repr

end Sys2Proof.Machine
end

