-- ==== Sys2Proof/Machine/Parameters.lean ====
section
/-!
DEFINITION. The parameter set of this core (00_scope R7): the values the spec decides, the SPONGENT tables among them
(40_permutation R121, R123, R126; 41_padding R153, R155). A corrected table changes this file and no rule.
-/

namespace Sys2Proof.Machine

/-- The wiring of 40_permutation R123, its table row by row: entry `j` is `P(j)`. -/
def pwireTable : List Nat :=
  [0, 44, 88, 132, 1, 45, 89, 133, 2, 46, 90, 134, 3, 47, 91, 135]
    ++ [4, 48, 92, 136, 5, 49, 93, 137, 6, 50, 94, 138, 7, 51, 95, 139]
    ++ [8, 52, 96, 140, 9, 53, 97, 141, 10, 54, 98, 142, 11, 55, 99, 143]
    ++ [12, 56, 100, 144, 13, 57, 101, 145, 14, 58, 102, 146, 15, 59, 103, 147]
    ++ [16, 60, 104, 148, 17, 61, 105, 149, 18, 62, 106, 150, 19, 63, 107, 151]
    ++ [20, 64, 108, 152, 21, 65, 109, 153, 22, 66, 110, 154, 23, 67, 111, 155]
    ++ [24, 68, 112, 156, 25, 69, 113, 157, 26, 70, 114, 158, 27, 71, 115, 159]
    ++ [28, 72, 116, 160, 29, 73, 117, 161, 30, 74, 118, 162, 31, 75, 119, 163]
    ++ [32, 76, 120, 164, 33, 77, 121, 165, 34, 78, 122, 166, 35, 79, 123, 167]
    ++ [36, 80, 124, 168, 37, 81, 125, 169, 38, 82, 126, 170, 39, 83, 127, 171]
    ++ [40, 84, 128, 172, 41, 85, 129, 173, 42, 86, 130, 174, 43, 87, 131, 175]

/-- The active parameter set. -/
abbrev params : Params :=
  { n := 176, rate := 16, cap := 160, rounds := 90
    sbox := [0xE, 0xD, 0xB, 0x0, 0x2, 0x1, 0x4, 0xF, 0x7, 0xA, 0x8, 0x5, 0x9, 0xC, 0x3, 0x6]
    pwire := pwireTable
    lfsrW := 7, lfsrInit := 0x45, lfsrTaps := [6, 5]
    klen := 16, tlenFix := 16, aadMax := 256, msgMax := 1024
    dsKey := 0x01, dsAad := 0x02, dsText := 0x03, dsMac := 0x04, dsFinal := 0x05
    padByte := 0x80, idValue := 0x53504E54 }

/-- `RB`, the rate in bytes. -/
abbrev rb : Nat := params.rb

/-- The window offset of `AAD[0]` (20_memory R63). -/
abbrev aadBase : Nat := 0x1000

/-- The window offset of `MSG[0]` (20_memory R63). -/
abbrev msgBase : Nat := 0x2000

end Sys2Proof.Machine
end

