-- ==== Sys2Proof/Machine/Ops.lean ====
section
/-!
DEFINITION. The named operations over memory and registers, and the lifecycle every command shares: acceptance
(43_aead R190) and the completion record (43_aead R196, R197; 60_exceptions R259), which is this block's nearest
analogue of taking an exception, with its acknowledgement beside it (60_exceptions R261).
-/

namespace Sys2Proof.Machine

/-! ## Memory

A list of (offset, byte) pairs with strictly rising offsets and no zero byte: an unlisted byte reads as 0x00, its value
after reset (10_state R47), and so has no entry of its own. -/

/-- The byte at an offset. -/
def Memory.read (m : Memory) (a : Nat) : Byte :=
  match m with
  | [] => 0
  | (a', b) :: rest => if a' = a then b else Memory.read rest a

/-- The memory with one byte replaced, in canonical form again. -/
def Memory.write (m : Memory) (a : Nat) (v : Byte) : Memory :=
  match m with
  | [] => if v = 0 then [] else [(a, v)]
  | (a', b) :: rest =>
    if a < a' then (if v = 0 then (a', b) :: rest else (a, v) :: (a', b) :: rest)
    else if a = a' then (if v = 0 then rest else (a, v) :: rest)
    else (a', b) :: Memory.write rest a v

/-- The `n` bytes from an offset on, in index order (20_memory R65). -/
def Memory.readBytes (m : Memory) (a : Nat) : Nat → List Byte
  | 0 => []
  | n + 1 => m.read a :: Memory.readBytes m (a + 1) n

/-- The memory with the bytes from an offset on replaced by a byte string. -/
def Memory.writeBytes (m : Memory) (a : Nat) : List Byte → Memory
  | [] => m
  | v :: vs => Memory.writeBytes (m.write a v) (a + 1) vs

/-- The memory with the `n` bytes from an offset on zeroized. -/
def Memory.zeroRange (m : Memory) (a n : Nat) : Memory :=
  m.filter fun c => decide (c.1 < a) || decide (a + n ≤ c.1)

/-- Whether an offset belongs to the AAD or MSG buffer (20_memory R63). -/
def bufferOffset (a : Nat) : Bool :=
  (decide (aadBase ≤ a) && decide (a < aadBase + params.aadMax))
    || (decide (msgBase ≤ a) && decide (a < msgBase + params.msgMax))

/-- The canonical form from an offset on: strictly rising buffer offsets, and no entry equal to what an unlisted
offset reads as. -/
def Memory.wfFrom (lo : Nat) : Memory → Bool
  | [] => true
  | (a, v) :: rest => decide (lo ≤ a) && bufferOffset a && v != 0 && Memory.wfFrom (a + 1) rest

/-- The canonical form of memory. -/
def Memory.wf (m : Memory) : Bool := Memory.wfFrom 0 m

/-! ## Quads of words -/

/-- Word `i` of a quad. -/
def Quad.get (q : Quad) (i : Fin 4) : Word :=
  match i with
  | 0 => q.w0
  | 1 => q.w1
  | 2 => q.w2
  | 3 => q.w3

/-- A quad with word `i` replaced. -/
def Quad.set (q : Quad) (i : Fin 4) (v : Word) : Quad :=
  match i with
  | 0 => { q with w0 := v }
  | 1 => { q with w1 := v }
  | 2 => { q with w2 := v }
  | 3 => { q with w3 := v }

/-- The 16 bytes of a quad: byte `4i + b` is bits `8b+7 .. 8b` of word `i` (10_state R36, R37; 20_memory R65). -/
def Quad.bytes (q : Quad) : List Byte :=
  wordBytes q.w0 ++ wordBytes q.w1 ++ wordBytes q.w2 ++ wordBytes q.w3

/-- The quad of a 16-byte string, by the same map; bytes past the string's end are 0. -/
def Quad.ofBytes (bs : List Byte) : Quad :=
  let w := fun i => wordOfBytes (bs.getD i 0) (bs.getD (i + 1) 0) (bs.getD (i + 2) 0) (bs.getD (i + 3) 0)
  { w0 := w 0, w1 := w 4, w2 := w 8, w3 := w 12 }

/-! ## Outputs of a command -/

/-- The state with `MSG[0 .. len-1]` replaced (43_aead R196). -/
def State.writeMsg (s : State) (bs : List Byte) : State := { s with mem := s.mem.writeBytes msgBase bs }

/-- The state with `TAGB[0..15]` replaced (43_aead R196). -/
def State.writeTag (s : State) (bs : List Byte) : State := { s with tag := Quad.ofBytes bs }

/-- `clear_effects()` of 44_control R232. -/
def clearEffects (s : State) : State :=
  { s with
    mem := (s.mem.zeroRange aadBase params.aadMax).zeroRange msgBase params.msgMax
    tag := Quad.zero, aadLen := 0, msgLen := 0 }

/-! ## Lifecycle -/

/-- Acceptance of a command word (43_aead R190): CMDQ, DONE and BUSY. The FSM leaves IDLE for CHECK, since it is IDLE
exactly while BUSY = 0 (10_state R43) and the controller's sequence begins with CHECK (70_reset R297). DEDUCED, log 4. -/
def accept (w : Word) (s : State) : State :=
  { s with cmdq := w, done := false, busy := true, fsm := .check }

/-- `zeroize()` of 43_aead R197. -/
def zeroize (s : State) : State :=
  { s with
    key := Quad.zero, keymask := 0
    sponge := 0, lc := 0, ridx := 0, bidx := 0, sqcnt := 0, diff := 0, tagc := Quad.zero, cmdq := 0
    fsm := .idle }

/-- The completion record, shared by every command: RESULT.CODE, DONE and DONE_IP, the zeroization, and BUSY last
(43_aead R196; 60_exceptions R259). -/
def complete (code : ResultCode) (s : State) : State :=
  { zeroize { s with result := code, done := true, doneIp := true } with busy := false }

/-- A write to IRQ_STAT, the acknowledgement of the completion interrupt: a 1 clears DONE_IP, a 0 leaves it
(10_state R32, 60_exceptions R261). -/
def acknowledge (v : Word) (s : State) : State :=
  if v.getLsbD 0 then { s with doneIp := false } else s

end Sys2Proof.Machine
end

