-- ==== Sys2Proof/Machine/Operands.lean ====
section
/-!
DEFINITION. The operand forms. A command's operands other than TLEN are the key, the tag, the lengths and the buffers
(30_encoding R94); a transaction's operand is an offset, a size and data (20_memory R60 to R68).
-/

namespace Sys2Proof.Machine

/-! ## A command's operands (30_encoding R94) -/

/-- `KEYB[0..15]`. -/
def keyOperand (s : State) : List Byte := s.key.bytes

/-- `TAGB[0..15]`, the supplied tag. -/
def tagOperand (s : State) : List Byte := s.tag.bytes

/-- `AAD[0 .. AAD_LEN-1]`. -/
def aadOperand (s : State) : List Byte := s.mem.readBytes aadBase s.aadLen.toNat

/-- `MSG[0 .. MSG_LEN-1]`. -/
def msgOperand (s : State) : List Byte := s.mem.readBytes msgBase s.msgLen.toNat

/-! ## A transaction's operands -/

/-- The mapped registers (10_state R20). -/
inductive Reg where
  | id | param0 | param1 | bufparam | cmd | status | result | irqEn | irqStat | aadLen | msgLen
  | key (i : Fin 4)
  | tag (i : Fin 4)
  deriving DecidableEq, Repr

/-- The register at an offset of the register block, if one is mapped there (10_state R20, 20_memory R63). -/
def regAt (a : Nat) : Option Reg :=
  match a with
  | 0x000 => some .id
  | 0x004 => some .param0
  | 0x008 => some .param1
  | 0x00C => some .bufparam
  | 0x010 => some .cmd
  | 0x014 => some .status
  | 0x018 => some .result
  | 0x01C => some .irqEn
  | 0x020 => some .irqStat
  | 0x024 => some .aadLen
  | 0x028 => some .msgLen
  | 0x040 => some (.key 0)
  | 0x044 => some (.key 1)
  | 0x048 => some (.key 2)
  | 0x04C => some (.key 3)
  | 0x050 => some (.tag 0)
  | 0x054 => some (.tag 1)
  | 0x058 => some (.tag 2)
  | 0x05C => some (.tag 3)
  | _ => none

/-- The `size` bytes from an offset on lie all in one part `[lo, hi)`. -/
def inPart (lo hi a size : Nat) : Bool := decide (lo ≤ a) && decide (a + size ≤ hi)

/-- The bytes of a transaction lie all in one mapped part (20_memory R63, R64). -/
def mapped (a size : Nat) : Bool :=
  inPart 0x000 0x02C a size || inPart 0x040 0x060 a size
    || inPart aadBase (aadBase + params.aadMax) a size || inPart msgBase (msgBase + params.msgMax) a size

/-- The size is 1, 2 or 4 and the offset a multiple of it (20_memory R66, R68). -/
def aligned (a size : Nat) : Bool :=
  (size == 1 || size == 2 || size == 4) && a % size == 0

/-- The offsets refused while BUSY = 1: CMD, AAD_LEN, MSG_LEN, KEY0 to KEY3, TAG0 to TAG3 and both windows
(20_memory R70). -/
def busyRefused (a : Nat) : Bool :=
  a == 0x010 || a == 0x024 || a == 0x028 || (decide (0x040 ≤ a) && decide (a < 0x060)) || decide (0x1000 ≤ a)

/-- The four checks of 20_memory R66, which MemRead and MemWrite share (R67). -/
def accessible (s : State) (a size : Nat) : Bool :=
  aligned a size && mapped a size && (decide (0x1000 ≤ a) || size == 4) && !(s.busy && busyRefused a)

/-- Bytes as one little-endian value of at most four bytes, zero-extended: `concat_le` of 20_memory R66. -/
def concatLe : List Byte → Word
  | [] => 0
  | b :: bs => b.setWidth 32 ||| (concatLe bs <<< 8)

/-- The low `size` bytes of a word, in the port's byte order (20_memory R65). -/
def splitLe (v : Word) (size : Nat) : List Byte := (wordBytes v).take size

/-- The window offset of a platform address, where the window lies at `base`; the interconnect decodes the bits above
bit 13 and the block never sees them (20_memory R62). -/
def windowOffset (base addr : Nat) : Option Offset :=
  if base ≤ addr ∧ addr < base + 0x4000 then some (BitVec.ofNat 14 (addr - base)) else none

end Sys2Proof.Machine
end

