-- ==== Sys2Proof/Machine/Flags.lean ====
section
/-!
DEFINITION. The flags a host can read and how each is computed: STATUS, RESULT, IRQ_EN, IRQ_STAT and `irq` (10_state
R27 to R33), the constant registers (R22 to R25), and the validation checks that decide RESULT.CODE before any
permutation runs (43_aead R191 to R195).
-/

namespace Sys2Proof.Machine

/-- One bit as a word. -/
def bitWord (b : Bool) : Word := (BitVec.ofBool b).setWidth 32

/-- STATUS: BUSY in bit 0, DONE in bit 1, KEYMASK in bits 11..8, the rest reserved and 0 (10_state R27 to R29). -/
def statusWord (s : State) : Word :=
  bitWord s.busy ||| (bitWord s.done <<< 1) ||| (s.keymask.setWidth 32 <<< 8)

/-- RESULT.CODE, the numbering of 30_encoding R95. -/
def ResultCode.code : ResultCode → BitVec 3
  | .success => 0
  | .fail => 1
  | .badHashBitLen => 2
  | .badTag => 3
  | .unknown => 4

/-- RESULT (10_state R30). -/
def resultWord (s : State) : Word := s.result.code.setWidth 32

/-- IRQ_EN (10_state R31). -/
def irqEnWord (s : State) : Word := bitWord s.doneIe

/-- IRQ_STAT (10_state R32). -/
def irqStatWord (s : State) : Word := bitWord s.doneIp

/-- The `irq` output: `DONE_IP and DONE_IE` (10_state R33), and 0 while `rst` is asserted (70_reset R280). -/
def irq (s : State) : Bool := !s.rst && (s.doneIp && s.doneIe)

/-- The platform interrupt `line` is the one the pin drives, and the pin is high (60_exceptions R260). -/
def irqOnLine (s : State) (line : Nat) : Bool := line == Config.irqLine && irq s

/-- PARAM0: `N` in bits 15..0, `ROUNDS` in bits 31..16 (10_state R23). -/
def param0Word : Word := BitVec.ofNat 32 (params.n + 0x10000 * params.rounds)

/-- PARAM1: `RATE` in bits 7..0, `KLEN` in bits 15..8, `TLEN_FIX` in bits 23..16 (10_state R24). -/
def param1Word : Word := BitVec.ofNat 32 (params.rate + 0x100 * params.klen + 0x10000 * params.tlenFix)

/-- BUFPARAM: `AAD_MAX` in bits 15..0, `MSG_MAX` in bits 31..16 (10_state R25). -/
def bufparamWord : Word := BitVec.ofNat 32 (params.aadMax + 0x10000 * params.msgMax)

/-- KEYMASK after a write to KEYi (10_state R29, R36). -/
def markKey (mask : BitVec 4) (i : Fin 4) : BitVec 4 := mask ||| (1#4 <<< i.val)

/-! ## Validation (43_aead R192 to R195) -/

/-- The checks of WRAP, UNWRAP and MAC from the key on, in the order of 43_aead R195; MAC does not check AAD_LEN. -/
def validateKeyed (usesAad : Bool) (tlen : Byte) (s : State) : Validation :=
  if s.keymask ≠ 0xF then .fail
  else if usesAad ∧ params.aadMax < s.aadLen.toNat then .fail
  else if params.msgMax < s.msgLen.toNat then .fail
  else if tlen.toNat ≠ params.tlenFix then .badHashBitLen
  else .ok

/-- `validate(w)` of 43_aead R195 on a command word, as its pseudocode has it. -/
def validate (w : Word) (s : State) : Validation :=
  if hasReservedBits w then .fail
  else if opField w = 0x4 then .ok
  else if opField w ≠ 0x1 ∧ opField w ≠ 0x2 ∧ opField w ≠ 0x3 then .fail
  else validateKeyed (opField w != 0x3) (tlenField w) s

end Sys2Proof.Machine
end

