-- ==== Sys2Proof/Machine/Permutation.lean ====
section
/-!
DEFINITION. The permutation round engine (40_permutation R120 to R132): pure functions on the 176-bit state, with the
substitution, the wiring and the round constants of the active parameter set.
-/

namespace Sys2Proof.Machine

/-! ## Byte view (00_scope R11) -/

/-- `SB[j]`, state byte `j`. -/
def stateByte (S : Sponge) (j : Nat) : Byte := S.extractLsb' (8 * j) 8

/-- The state with `v` XORed into `SB[j]`. -/
def xorByte (S : Sponge) (j : Nat) (v : Byte) : Sponge := S ^^^ (v.setWidth 176 <<< (8 * j))

/-- The state of 22 bytes in index order, `SB[0]` first (00_scope R11). -/
def spongeOfBytes : List Byte → Sponge
  | [] => 0
  | b :: bs => b.setWidth 176 ||| (spongeOfBytes bs <<< 8)

/-! ## Substitution layer -/

/-- `SBOX[x]` (40_permutation R121). -/
def sbox (x : BitVec 4) : BitVec 4 := params.sbox.getD x.toNat 0

/-- The lowest `k` nibbles substituted, the rest 0. -/
def sBoxLanes (S : Sponge) : Nat → Sponge
  | 0 => 0
  | k + 1 => sBoxLanes S k ||| ((sbox (S.extractLsb' (4 * k) 4)).setWidth 176 <<< (4 * k))

/-- `sBoxLayer`: the S-box on each of the `N/4` nibbles (40_permutation R122). -/
def sBoxLayer (S : Sponge) : Sponge := sBoxLanes S (params.n / 4)

/-! ## Bit-permutation layer -/

/-- `P(j)`, entry `j` of the wiring (40_permutation R123). -/
def pwire (j : Nat) : Nat := params.pwire.getD j 0

/-- The bits from `j` on moved to the places that a wiring lists for them, the rest 0. -/
def pBits (S : Sponge) (j : Nat) : List Nat → Sponge
  | [] => 0
  | p :: ps => if S.getLsbD j then BitVec.twoPow 176 p ||| pBits S (j + 1) ps else pBits S (j + 1) ps

/-- `pLayer`: input bit `j` becomes output bit `P(j)` (40_permutation R124). -/
def pLayer (S : Sponge) : Sponge := pBits S 0 params.pwire

/-! ## Round constants -/

/-- The counter's bit reversal placed in the highest bits: bit `k` of `LC` at bit `N-1-k` (40_permutation R125). -/
def retnuoCl (lc : BitVec 7) : Sponge := (lc.reverse).setWidth 176 <<< (params.n - params.lfsrW)

/-- `addRC`: the counter into the lowest bits, its reversal into the highest (40_permutation R125). -/
def addRC (S : Sponge) (lc : BitVec 7) : Sponge := (S ^^^ lc.setWidth 176) ^^^ retnuoCl lc

/-- `lfsr_next`: shift left by one and feed the taps' exclusive-or in (40_permutation R126). -/
def lfsrNext (lc : BitVec 7) : BitVec 7 :=
  (lc <<< 1) ||| (BitVec.ofBool (params.lfsrTaps.foldl (fun b i => b ^^ lc.getLsbD i) false)).setWidth 7

/-- `LC_i` for `i >= 1`, at index `i - 1` (40_permutation R126). -/
def lcAt : Nat → BitVec 7
  | 0 => params.lfsrInit
  | i + 1 => lfsrNext (lcAt i)

/-! ## Round and permutation -/

/-- One round: the constant, the substitution, the wiring; and the next counter (40_permutation R127, R131). -/
def round (S : Sponge) (lc : BitVec 7) : Sponge × BitVec 7 :=
  (pLayer (sBoxLayer (addRC S lc)), lfsrNext lc)

/-- `k` rounds. -/
def rounds (S : Sponge) (lc : BitVec 7) : Nat → Sponge × BitVec 7
  | 0 => (S, lc)
  | k + 1 => rounds (round S lc).1 (round S lc).2 k

/-- `permute`: `ROUNDS` rounds from a fresh counter (40_permutation R128). -/
def permute (S : Sponge) : Sponge := (rounds S params.lfsrInit params.rounds).1

end Sys2Proof.Machine
end

