-- ==== Sys2Proof/Machine/Padding.lean ====
section
/-!
DEFINITION. The padding and domain-separation block formatter (41_padding R150 to R158).
-/

namespace Sys2Proof.Machine

/-- `nb(L)`, the number of blocks of an `L`-byte message (41_padding R152). -/
def blockCount (len : Nat) : Nat := len / rb + 1

/-- The message, the padding byte, and the fewest zero bytes that fill the last block (41_padding R151, R153). -/
def padBytes (M : List Byte) : List Byte :=
  M ++ [params.padByte] ++ List.replicate (blockCount M.length * rb - M.length - 1) 0

/-- The bytes cut into `n` blocks of `RB`. -/
def blocksOf (X : List Byte) : Nat → List Block
  | 0 => []
  | n + 1 => X.take rb :: blocksOf (X.drop rb) n

/-- `pad(M)` (41_padding R151). -/
def pad (M : List Byte) : List Block := blocksOf (padBytes M) (blockCount M.length)

/-- Blocks with the phase constant on the first and 0 on every other (41_padding R156, R158). -/
def withConstant (ds : Byte) : List Block → List (Block × Byte)
  | [] => []
  | blk :: blks => (blk, ds) :: blks.map fun b => (b, 0)

/-- The `(block, constant)` pairs of one phase (41_padding R158). -/
def phasePairs (M : List Byte) (ds : Byte) : List (Block × Byte) := withConstant ds (pad M)

end Sys2Proof.Machine
end

