-- ==== Sys2Proof/Machine/SpongeOps.lean ====
section
/-!
DEFINITION. The sponge state machine (42_sponge R170 to R182): internal pure functions on the state.
-/

namespace Sys2Proof.Machine

/-- Bytes `blk[i] .. blk[i+k-1]` XORed into `SB[i] ..`. -/
def xorBytesFrom (S : Sponge) (blk : Block) : Nat → Sponge
  | 0 => S
  | k + 1 => xorByte (xorBytesFrom S blk k) k (blk.getD k 0)

/-- `xor_block`: one block into the rate, never the capacity (42_sponge R171). -/
def xorBlock (S : Sponge) (blk : Block) : Sponge := xorBytesFrom S blk rb

/-- `absorb` (42_sponge R172). -/
def absorb (S : Sponge) (blk : Block) : Sponge := permute (xorBlock S blk)

/-- A block XORed into the rate and a constant into `SB[RB]`, before the permutation (41_padding R156). -/
def inject (S : Sponge) (blk : Block) (c : Byte) : Sponge := xorByte (xorBlock S blk) rb c

/-- One step of a phase: the block, its constant, and the permutation (41_padding R156). -/
def absorbPair (S : Sponge) (p : Block × Byte) : Sponge := permute (inject S p.1 p.2)

/-- `absorb_phase` (42_sponge R173). -/
def absorbPhase (S : Sponge) (M : List Byte) (ds : Byte) : Sponge := (phasePairs M ds).foldl absorbPair S

/-- `initialize`: the zero state, and the key phase (42_sponge R170). -/
def initSponge (K : List Byte) : Sponge := absorbPhase 0 K params.dsKey

/-- `rate(S)`: `SB[0] .. SB[RB-1]`, the only read of the state (42_sponge R174). -/
def rate (S : Sponge) : List Byte := (List.range rb).map (stateByte S)

/-- The loop of `squeeze`, with the bytes still to read; `fuel` bounds its turns. -/
def squeezeLoop (S : Sponge) (n : Nat) : Nat → List Byte × Sponge
  | 0 => ((rate S).take n, S)
  | fuel + 1 =>
    if n ≤ rb then ((rate S).take n, S)
    else
      let r := squeezeLoop (permute S) (n - rb) fuel
      (rate S ++ r.1, r.2)

/-- `squeeze`: read the rate, and permute before each further read (42_sponge R175). -/
def squeeze (S : Sponge) (n : Nat) : List Byte × Sponge := squeezeLoop S n n

/-- Two byte strings XORed, as long as the shorter. -/
def xorStrings (a b : List Byte) : List Byte := List.zipWith (· ^^^ ·) a b

/-- The loop of `encrypt_text` over the padded blocks with their constants; `P` is the plaintext not yet used. The
keystream is the rate before the block is absorbed, and the plaintext block is what is absorbed (42_sponge R176). -/
def encryptBlocks (S : Sponge) (P : List Byte) : List (Block × Byte) → List Byte × Sponge
  | [] => ([], S)
  | p :: ps =>
    let r := encryptBlocks (absorbPair S p) (P.drop rb) ps
    (xorStrings (P.take rb) (rate S) ++ r.1, r.2)

/-- `encrypt_text` (42_sponge R176). -/
def encryptText (S : Sponge) (P : List Byte) : List Byte × Sponge :=
  encryptBlocks S P (phasePairs P params.dsText)

/-- The block absorbed for recovered bytes `p`: they are padded in the last block only (42_sponge R177). -/
def recoveredBlock (p : List Byte) (last : Bool) : Block :=
  if last then p ++ [params.padByte] ++ List.replicate (rb - p.length - 1) 0 else p

/-- The loop of `decrypt_text` over the remaining blocks, `c` the first one's constant; `C` is the ciphertext not yet
used (42_sponge R177). -/
def decryptBlocks (S : Sponge) (C : List Byte) (c : Byte) : Nat → List Byte × Sponge
  | 0 => ([], S)
  | n + 1 =>
    let p := xorStrings (C.take rb) (rate S)
    let r := decryptBlocks (absorbPair S (recoveredBlock p (n == 0), c)) (C.drop rb) 0 n
    (p ++ r.1, r.2)

/-- `decrypt_text` (42_sponge R177). -/
def decryptText (S : Sponge) (C : List Byte) : List Byte × Sponge :=
  decryptBlocks S C params.dsText (blockCount C.length)

/-- `finalize`: the empty phase with `DS_FINAL` (42_sponge R178). -/
def finalize (S : Sponge) : Sponge := absorbPhase S [] params.dsFinal

/-- `tag`: the first `TLEN_FIX` bytes squeezed after finalization (42_sponge R179). -/
def tagOf (S : Sponge) : List Byte := (squeeze (finalize S) params.tlenFix).1

end Sys2Proof.Machine
end

