-- ==== Sys2Proof/Machine/Aead.lean ====
section
/-!
DEFINITION. The WRAP, UNWRAP and MAC controllers: their functions on byte strings, apart from the bus machinery
(43_aead R199), and the meanings of the three commands over the registers and buffers (R196, R200, R210, R220).
-/

namespace Sys2Proof.Machine

/-! ## Functions on byte strings -/

/-- `wrap_fn` (43_aead R201): the ciphertext and the tag. -/
def wrapFn (K A P : List Byte) : List Byte × List Byte :=
  let r := encryptText (absorbPhase (initSponge K) A params.dsAad) P
  (r.1, tagOf r.2)

/-- The difference accumulated over the first `n` bytes, with no early exit (43_aead R213). -/
def tagDiff (T Tin : List Byte) : Nat → Byte
  | 0 => 0
  | n + 1 => tagDiff T Tin n ||| (T.getD n 0 ^^^ Tin.getD n 0)

/-- `ct_equal` (43_aead R213): all `TLEN_FIX` bytes, one decision at the end. -/
def ctEqual (T Tin : List Byte) : Bool := tagDiff T Tin params.tlenFix == 0

/-- `unwrap_fn` (43_aead R211): the recovered plaintext with Success, or as many zero bytes with BadTag (R214). -/
def unwrapFn (K A C Tin : List Byte) : List Byte × ResultCode :=
  let r := decryptText (absorbPhase (initSponge K) A params.dsAad) C
  if ctEqual (tagOf r.2) Tin then (r.1, .success) else (List.replicate C.length 0, .badTag)

/-- `mac_fn` (43_aead R221). -/
def macFn (K M : List Byte) : List Byte := tagOf (absorbPhase (initSponge K) M params.dsMac)

/-! ## Commands -/

/-- The outputs of a validated WRAP, and its completion (43_aead R196, case 0x1). -/
def wrapDone (s : State) : State :=
  let r := wrapFn (keyOperand s) (aadOperand s) (msgOperand s)
  complete .success ((s.writeMsg r.1).writeTag r.2)

/-- The output of a validated UNWRAP, and its completion; TAG is never written (43_aead R196, case 0x2, and R214). -/
def unwrapDone (s : State) : State :=
  let r := unwrapFn (keyOperand s) (aadOperand s) (msgOperand s) (tagOperand s)
  complete r.2 (s.writeMsg r.1)

/-- The output of a validated MAC, and its completion (43_aead R196, case 0x3). -/
def macDone (s : State) : State :=
  complete .success (s.writeTag (macFn (keyOperand s) (msgOperand s)))

/-- A command that validation lets through ends as `onOk`; another completes with its code and no output
(43_aead R196, R198). -/
def afterValidation (v : Validation) (s onOk : State) : State :=
  match v with
  | .ok => onOk
  | .fail => complete .fail s
  | .badHashBitLen => complete .badHashBitLen s

/-- WRAP (43_aead R200). -/
def execWrap (tlen : Byte) (s : State) : Host.Outcome State Fault Refusal :=
  .next (afterValidation (validateKeyed true tlen s) s (wrapDone s))

/-- UNWRAP (43_aead R210). -/
def execUnwrap (tlen : Byte) (s : State) : Host.Outcome State Fault Refusal :=
  .next (afterValidation (validateKeyed true tlen s) s (unwrapDone s))

/-- MAC (43_aead R220). -/
def execMac (tlen : Byte) (s : State) : Host.Outcome State Fault Refusal :=
  .next (afterValidation (validateKeyed false tlen s) s (macDone s))

end Sys2Proof.Machine
end

