-- ==== Sys2Proof/Machine/Control.lean ====
section
/-!
DEFINITION. The control commands: NOP, CLEAR, the reserved opcodes and the words with a reserved bit set (44_control
R230 to R234, 43_aead R191).
-/

namespace Sys2Proof.Machine

/-- NOP: no state changes and no completion (44_control R230). -/
def execNop (_tlen : Byte) (s : State) : Host.Outcome State Fault Refusal := .next s

/-- CLEAR: every host-loaded input is zeroized, with Success (44_control R232). -/
def execClear (_tlen : Byte) (s : State) : Host.Outcome State Fault Refusal :=
  .next (complete .success (clearEffects s))

/-- What every reserved command does: it completes with Fail and writes no output (44_control R234, 43_aead R198). -/
def failReserved (s : State) : State := complete .fail s

/-- Reserved opcode 0x5 (44_control R234). -/
def execReserved5 (_tlen : Byte) (s : State) : Host.Outcome State Fault Refusal := .next (failReserved s)

/-- Reserved opcode 0x6 (44_control R234). -/
def execReserved6 (_tlen : Byte) (s : State) : Host.Outcome State Fault Refusal := .next (failReserved s)

/-- Reserved opcode 0x7 (44_control R234). -/
def execReserved7 (_tlen : Byte) (s : State) : Host.Outcome State Fault Refusal := .next (failReserved s)

/-- Reserved opcode 0x8 (44_control R234). -/
def execReserved8 (_tlen : Byte) (s : State) : Host.Outcome State Fault Refusal := .next (failReserved s)

/-- Reserved opcode 0x9 (44_control R234). -/
def execReserved9 (_tlen : Byte) (s : State) : Host.Outcome State Fault Refusal := .next (failReserved s)

/-- Reserved opcode 0xA (44_control R234). -/
def execReservedA (_tlen : Byte) (s : State) : Host.Outcome State Fault Refusal := .next (failReserved s)

/-- Reserved opcode 0xB (44_control R234). -/
def execReservedB (_tlen : Byte) (s : State) : Host.Outcome State Fault Refusal := .next (failReserved s)

/-- Reserved opcode 0xC (44_control R234). -/
def execReservedC (_tlen : Byte) (s : State) : Host.Outcome State Fault Refusal := .next (failReserved s)

/-- Reserved opcode 0xD (44_control R234). -/
def execReservedD (_tlen : Byte) (s : State) : Host.Outcome State Fault Refusal := .next (failReserved s)

/-- Reserved opcode 0xE (44_control R234). -/
def execReservedE (_tlen : Byte) (s : State) : Host.Outcome State Fault Refusal := .next (failReserved s)

/-- Reserved opcode 0xF (44_control R234). -/
def execReservedF (_tlen : Byte) (s : State) : Host.Outcome State Fault Refusal := .next (failReserved s)

/-- A word with a reserved bit set completes with Fail, whatever its OP (43_aead R191). -/
def execReservedBits (_op _rsv0 : BitVec 4) (_tlen : Byte) (_rsv1 : BitVec 16) (s : State) :
    Host.Outcome State Fault Refusal := .next (failReserved s)

end Sys2Proof.Machine
end

