-- ==== Sys2Proof/Machine/Dispatch.lean ====
section
/-!
DEFINITION. One arm per command. A command's meaning is its whole effect, from the state in which the core takes it to
the state after its completion (43_aead R196; for NOP, no effect).
-/

namespace Sys2Proof.Machine

def exec (i : Instr) (s : State) : Host.Outcome State Fault Refusal :=
  match i with
  | .nop tlen => Sys2Proof.Machine.execNop tlen s
  | .wrap tlen => Sys2Proof.Machine.execWrap tlen s
  | .unwrap tlen => Sys2Proof.Machine.execUnwrap tlen s
  | .mac tlen => Sys2Proof.Machine.execMac tlen s
  | .clear tlen => Sys2Proof.Machine.execClear tlen s
  | .reserved5 tlen => Sys2Proof.Machine.execReserved5 tlen s
  | .reserved6 tlen => Sys2Proof.Machine.execReserved6 tlen s
  | .reserved7 tlen => Sys2Proof.Machine.execReserved7 tlen s
  | .reserved8 tlen => Sys2Proof.Machine.execReserved8 tlen s
  | .reserved9 tlen => Sys2Proof.Machine.execReserved9 tlen s
  | .reservedA tlen => Sys2Proof.Machine.execReservedA tlen s
  | .reservedB tlen => Sys2Proof.Machine.execReservedB tlen s
  | .reservedC tlen => Sys2Proof.Machine.execReservedC tlen s
  | .reservedD tlen => Sys2Proof.Machine.execReservedD tlen s
  | .reservedE tlen => Sys2Proof.Machine.execReservedE tlen s
  | .reservedF tlen => Sys2Proof.Machine.execReservedF tlen s
  | .reservedBits op rsv0 tlen rsv1 => Sys2Proof.Machine.execReservedBits op rsv0 tlen rsv1 s

end Sys2Proof.Machine
end

