-- ==== Sys2Proof/Machine/Bus.lean ====
section
/-!
DEFINITION. The slave port: `register_read`, `register_write`, `MemRead` and `MemWrite` of 20_memory R66 and R67, and
the presentation of a command word (43_aead R190). A refused access is a fault here (60_exceptions R256); Agents.lean
turns it into the ERROR response.
-/

namespace Sys2Proof.Machine

/-- `register_read`: reserved bits read 0, and CMD and KEY0 to KEY3 read 0 (20_memory R66, 10_state R21). -/
def readReg (s : State) (r : Reg) : Word :=
  match r with
  | .id => params.idValue
  | .param0 => param0Word
  | .param1 => param1Word
  | .bufparam => bufparamWord
  | .cmd => 0
  | .status => statusWord s
  | .result => resultWord s
  | .irqEn => irqEnWord s
  | .irqStat => irqStatWord s
  | .aadLen => s.aadLen
  | .msgLen => s.msgLen
  | .key _ => 0
  | .tag i => s.tag.get i

/-- What a write to CMD does while the core is idle: a Nop is not accepted and runs at once, without effect; any other
word is accepted, and its command runs at the core's turn (43_aead R190, 44_control R230). -/
def presentCommand (w : Word) (s : State) : Host.Outcome State Fault Refusal :=
  match present w with
  | .nop => exec (decodeWord w) s
  | .cmd _ _ => .next (accept w s)

/-- `register_write`: a write to a read-only register is ignored, and a write to a reserved bit is ignored
(20_memory R67, 10_state R21). -/
def writeReg (r : Reg) (v : Word) (s : State) : Host.Outcome State Fault Refusal :=
  match r with
  | .id | .param0 | .param1 | .bufparam | .status | .result => .next s
  | .cmd => presentCommand v s
  | .irqEn => .next { s with doneIe := v.getLsbD 0 }
  | .irqStat => .next (acknowledge v s)
  | .aadLen => .next { s with aadLen := v }
  | .msgLen => .next { s with msgLen := v }
  | .key i => .next { s with key := s.key.set i v, keymask := markKey s.keymask i }
  | .tag i => .next { s with tag := s.tag.set i v }

/-- `MemRead(addr, size)`: the value read, zero-extended to a word (20_memory R66). -/
def memRead (s : State) (addr : Offset) (size : Nat) : Except Fault Word :=
  if accessible s addr.toNat size then
    if addr.toNat < 0x1000 then
      match regAt addr.toNat with
      | some r => .ok (readReg s r)
      | none => .error (.busError addr)
    else .ok (concatLe (s.mem.readBytes addr.toNat size))
  else .error (.busError addr)

/-- `MemWrite(addr, size, v)` (20_memory R67). -/
def memWrite (addr : Offset) (size : Nat) (v : Word) (s : State) : Host.Outcome State Fault Refusal :=
  if accessible s addr.toNat size then
    if addr.toNat < 0x1000 then
      match regAt addr.toNat with
      | some r => writeReg r v s
      | none => .fault (.busError addr)
    else .next { s with mem := s.mem.writeBytes addr.toNat (splitLe v size) }
  else .fault (.busError addr)

end Sys2Proof.Machine
end

