-- ==== Sys2Proof/Machine/Agents.lean ====
section
/-!
DEFINITION. The two agents of 00_scope R15, the host at the slave port and the core, and the `rst` input (70_reset
R280, R281). Each operation here is one event of the total order of 20_memory R71.
-/

namespace Sys2Proof.Machine

/-- The port's answer to a read (20_memory R60, R61): its data with OKAY, or 0 with ERROR. -/
def readReply : Except Fault Word → BusReply
  | .ok v => { resp := .okay, rdata := some v }
  | .error _ => { resp := .error, rdata := some 0 }

/-- The port's answer to a write (20_memory R60). -/
def writeReply (r : Resp) : BusReply := { resp := r, rdata := none }

/-- The host's step: one transaction, atomically. A refused access gets the ERROR response and changes nothing else,
and the machine goes on (20_memory R61; 60_exceptions R255, R256). -/
def hostTurn (t : Transaction) (s : State) : Host.Outcome State Fault Refusal :=
  match t with
  | .read addr size => .next { s with reply := some (readReply (memRead s addr size)) }
  | .write addr size v =>
    match memWrite addr size v s with
    | .next s' => .next { s' with reply := some (writeReply .okay) }
    | .fault _ => .next { s with reply := some (writeReply .error) }
    | .refused r => .refused r

/-- The core's step, enabled exactly while BUSY = 1: it takes the accepted word from CMDQ and runs its command to
completion (43_aead R196). While it is not enabled, the core waits for a CMD write (70_reset R280). -/
def coreTurn (s : State) : Host.Outcome State Fault Refusal :=
  if s.busy then exec (decodeWord s.cmdq) s else .next s

/-- The first change of `rst` on an agenda, and the agenda without it. -/
def takeRst : List Event → Option (Bool × List Event)
  | [] => none
  | .rst level :: rest => some (level, rest)
  | e :: rest => (takeRst rest).map fun r => (r.1, e :: r.2)

/-- A step while `rst` is asserted. The port takes no transaction and the core does not step: what the agenda holds
waits until `rst` is released, and then the reset sequence leaves every piece of state at its reset value (70_reset
R280, R281). With no release on the agenda nothing happens. -/
def resetTurn (s : State) : Host.Outcome State Fault Refusal :=
  match takeRst s.agenda with
  | some (true, rest) => .next { s with agenda := rest }
  | some (false, rest) => .next { State.reset with agenda := rest }
  | none => .next s

/-- A step while `rst` is not asserted: the agenda's first event, or the core's turn where the agenda is empty, so that
an enabled completion is taken at last (00_scope R15). Asserting `rst` aborts the running command (70_reset R281). -/
def runTurn (s : State) : Host.Outcome State Fault Refusal :=
  match s.agenda with
  | [] => coreTurn s
  | .core :: rest => coreTurn { s with agenda := rest }
  | .bus t :: rest => hostTurn t { s with agenda := rest }
  | .rst level :: rest => .next { s with rst := level, agenda := rest }

/-- The state in which the very next step runs the command of a word. A Nop runs when it is written to an idle core, so
its CMD write is put first on the agenda; any other command runs at the core's turn, so its word is accepted and the
core's turn is put first. -/
def placeCommand (w : Word) (s : State) : State :=
  match present w with
  | .nop => { s with rst := false, busy := false, fsm := .idle, agenda := .bus (.write 0x010 4 w) :: s.agenda }
  | .cmd _ _ => { accept w s with rst := false, agenda := .core :: s.agenda }

end Sys2Proof.Machine
end

