-- ==== Sys2Proof/Machine/Datapath.lean ====
section
/-!
DEFINITION. The reference datapath (10_state R41 to R43; 40_permutation R131; 43_aead R205; 70_reset R297): how the
controller and the round engine compute one command cycle by cycle in the hidden registers, one round a cycle, with the
MSG buffer overwritten in place block by block. Nothing of it can be seen at the port, and `step` does not use it: the
completion step is one event (R196). It is here so that the one can be compared with the other. Which cycle does what
inside R297's outline is the model's own choice (log 9).
-/

namespace Sys2Proof.Machine

/-- OP of the accepted word. -/
def cmdqOp (s : State) : BitVec 4 := opField s.cmdq

/-- The round engine starts on a state: LC and RIDX are loaded (10_state R42, 40_permutation R131). -/
def startPermute (S : Sponge) (s : State) : State := { s with sponge := S, lc := params.lfsrInit, ridx := 0 }

/-- A block is formatted and XORed in, and its permutation starts (41_padding R156, 70_reset R297). -/
def loadBlock (blk : Block) (ds : Byte) (s : State) : State :=
  startPermute (inject s.sponge blk (if s.bidx = 0 then ds else 0)) s

/-- Block BIDX of a phase that absorbs `M`. -/
def loadPhase (M : List Byte) (ds : Byte) (s : State) : State := loadBlock ((pad M).getD s.bidx []) ds s

/-- Block BIDX of the text phase: its input bytes are read from MSG before its output bytes are written to the same
offsets (43_aead R205), and the plaintext block is what is absorbed (42_sponge R176, R177). -/
def loadText (decrypt : Bool) (s : State) : State :=
  let off := msgBase + s.bidx * rb
  let x := s.mem.readBytes off (min rb (s.msgLen.toNat - s.bidx * rb))
  let y := xorStrings x (rate s.sponge)
  let blk := recoveredBlock (if decrypt then y else x) (s.bidx + 1 == blockCount s.msgLen.toNat)
  { loadBlock blk params.dsText s with mem := s.mem.writeBytes off y }

/-- How many blocks the controller's present phase has (41_padding R152). -/
def phaseBlocks (s : State) : Nat :=
  match s.fsm with
  | .key => blockCount params.klen
  | .aad => blockCount s.aadLen.toNat
  | .text | .macmsg => blockCount s.msgLen.toNat
  | _ => 1

/-- The phase after the present one (41_padding R157, 70_reset R297). -/
def nextPhase (s : State) : Fsm :=
  match s.fsm with
  | .key => if cmdqOp s = 0x3 then .macmsg else .aad
  | .aad => .text
  | .text | .macmsg => .final
  | .final => .squeeze
  | f => f

/-- What follows a permutation: the next block of the phase, or the next phase. In SQUEEZE the next read follows. -/
def afterPermute (s : State) : State :=
  if s.fsm = .squeeze then s
  else if s.bidx + 1 < phaseBlocks s then { s with bidx := s.bidx + 1 }
  else { s with bidx := 0, fsm := nextPhase s }

/-- One cycle of the round engine; with RIDX at ROUNDS the permutation is done (40_permutation R131). Which values LC and
RIDX hold from then to the next permutation the spec leaves open (10_state R42): here LC is 0 and RIDX stays at ROUNDS.
DESIGN CHOICE, log 9. -/
def roundCycle (s : State) : State :=
  let r := round s.sponge s.lc
  let s' := { s with sponge := r.1, lc := r.2, ridx := s.ridx + 1 }
  if s'.ridx < params.rounds then s' else afterPermute { s' with lc := 0 }

/-- A quad with the bytes from `i` on replaced. -/
def Quad.setBytes (q : Quad) (i : Nat) (bs : List Byte) : Quad :=
  Quad.ofBytes (q.bytes.take i ++ bs ++ q.bytes.drop (i + bs.length))

/-- SQUEEZE: the rate goes to TAGC, and the state is permuted before a further read (42_sponge R175). -/
def squeezeCycle (s : State) : State :=
  let s' := { s with tagc := s.tagc.setBytes s.sqcnt (rate s.sponge), sqcnt := s.sqcnt + rb }
  if s'.sqcnt < params.tlenFix then startPermute s'.sponge s'
  else { s' with fsm := if cmdqOp s = 0x2 then .compare else .writeback }

/-- COMPARE: one byte a cycle into DIFF (43_aead R213, 70_reset R297). -/
def compareCycle (s : State) : State :=
  let s' := { s with diff := s.diff ||| (s.tagc.bytes.getD s.bidx 0 ^^^ s.tag.bytes.getD s.bidx 0), bidx := s.bidx + 1 }
  if s'.bidx < params.tlenFix then s' else { s' with bidx := 0, fsm := .writeback }

/-- The buffers' size in 32-bit words. -/
def bufferWords : Nat := (params.aadMax + params.msgMax) / 4

/-- WRITEBACK of a CLEAR: one 32-bit word of the buffers a cycle (70_reset R297), and with the last the registers
(44_control R232). -/
def clearCycle (s : State) : State :=
  let k := s.bidx
  let off := if 4 * k < params.aadMax then aadBase + 4 * k else msgBase + (4 * k - params.aadMax)
  let s' := { s with mem := s.mem.zeroRange off 4, bidx := k + 1 }
  if k + 1 < bufferWords then s'
  else { s' with bidx := 0, tag := Quad.zero, aadLen := 0, msgLen := 0, fsm := .zeroize }

/-- WRITEBACK: the tag of WRAP and MAC; zero bytes over a rejected UNWRAP's plaintext (43_aead R214). -/
def writebackCycle (s : State) : State :=
  if cmdqOp s = 0x4 then clearCycle s
  else if cmdqOp s = 0x2 then
    if s.diff = 0 then { s with fsm := .zeroize }
    else { s.writeMsg (List.replicate s.msgLen.toNat 0) with fsm := .zeroize }
  else { s with tag := s.tagc, fsm := .zeroize }

/-- CHECK: validation (43_aead R195). -/
def checkCycle (s : State) : State :=
  match validate s.cmdq s with
  | .ok => { s with fsm := if cmdqOp s = 0x4 then .writeback else .key }
  | _ => { s with fsm := .zeroize }

/-- The result code the completion records. -/
def datapathCode (s : State) : ResultCode :=
  match validate s.cmdq s with
  | .fail => .fail
  | .badHashBitLen => .badHashBitLen
  | .ok => if cmdqOp s = 0x2 ∧ s.diff ≠ 0 then .badTag else .success

/-- One cycle of the core while it is busy: a round while the round engine runs (LC is then never 0), else one action
of the controller. -/
def cycle (s : State) : State :=
  if s.lc ≠ 0 then roundCycle s
  else
    match s.fsm with
    | .idle => s
    | .check => checkCycle s
    | .key => loadPhase (keyOperand s) params.dsKey s
    | .aad => loadPhase (aadOperand s) params.dsAad s
    | .text => loadText (cmdqOp s == 0x2) s
    | .macmsg => loadPhase (msgOperand s) params.dsMac s
    | .final => loadPhase [] params.dsFinal s
    | .squeeze => squeezeCycle s
    | .compare => compareCycle s
    | .writeback => writebackCycle s
    | .zeroize => complete (datapathCode s) s

/-- `n` cycles. -/
def cycles (s : State) : Nat → State
  | 0 => s
  | n + 1 => cycles (cycle s) n

/-- The cycles of a command that passes validation, from its opcode and the lengths alone. -/
def validLatency (op : BitVec 4) (aadLen msgLen : Nat) : Nat :=
  if op = 0x4 then bufferWords + 2
  else
    let blocks := blockCount params.klen + (if op = 0x3 then 0 else blockCount aadLen) + blockCount msgLen + 1
    let reads := params.tlenFix / rb
    1 + blocks * (params.rounds + 1) + (reads + (reads - 1) * params.rounds)
      + (if op = 0x2 then params.tlenFix else 0) + 2

/-- The cycles from acceptance to completion: they depend on the opcode, the validation outcome, AAD_LEN and MSG_LEN,
and on no data (70_reset R298). -/
def latency (s : State) : Nat :=
  match validate s.cmdq s with
  | .ok => validLatency (cmdqOp s) s.aadLen.toNat s.msgLen.toNat
  | _ => 2

end Sys2Proof.Machine
end

