-- ==== Sys2Proof/Machine/Lifecycle.lean ====
section
/-!
DEFINITION. The core's completion step by command word, as the pseudocode of 43_aead R196 has it: the reference that
the meanings of the single commands are held against.
-/

namespace Sys2Proof.Machine

/-- The output of a validated command and its code, by opcode (43_aead R196, the `elif` chain). -/
def outputs (op : BitVec 4) (s : State) : State × ResultCode :=
  if op = 0x1 then
    let r := wrapFn (keyOperand s) (aadOperand s) (msgOperand s)
    ((s.writeMsg r.1).writeTag r.2, .success)
  else if op = 0x2 then
    let r := unwrapFn (keyOperand s) (aadOperand s) (msgOperand s) (tagOperand s)
    (s.writeMsg r.1, r.2)
  else if op = 0x3 then (s.writeTag (macFn (keyOperand s) (msgOperand s)), .success)
  else (clearEffects s, .success)

/-- `complete_step()` of 43_aead R196, for the word `w` in CMDQ. -/
def completeStep (w : Word) (s : State) : State :=
  match validate w s with
  | .fail => complete .fail s
  | .badHashBitLen => complete .badHashBitLen s
  | .ok => complete (outputs (opField w) s).2 (outputs (opField w) s).1

end Sys2Proof.Machine
end

