-- ==== Sys2Proof/Safety.lean ====
section
/-!
DEFINITION. What a safe run is. `Inv` gathers the rules that hold in every state the machine can be in between two
events; a program's run is safe where, besides, no transaction of it got the ERROR response.
-/

namespace Sys2Proof.Machine

/-- The hidden registers between two events: all zero, since a command's whole use of them lies inside its completion
step (10_state R43, R45). -/
def hiddenZero (s : State) : Prop :=
  s.sponge = 0 ∧ s.lc = 0 ∧ s.ridx = 0 ∧ s.bidx = 0 ∧ s.sqcnt = 0 ∧ s.diff = 0 ∧ s.tagc = Quad.zero

/-- Every key word that KEYMASK does not mark is zero (10_state R29, R36). -/
def unmarkedKeyZero (s : State) : Prop := ∀ i : Fin 4, s.keymask.getLsbD i.val = false → s.key.get i = 0

/-- The machine's invariant. -/
structure Inv (s : State) : Prop where
  /-- Memory is in canonical form and lists buffer bytes only. -/
  mem : s.mem.wf = true
  /-- FSM is IDLE exactly when BUSY = 0, and is CHECK while a command waits for its completion (10_state R43). -/
  fsm : s.fsm = if s.busy then .check else .idle
  /-- The hidden registers are zero. -/
  hidden : hiddenZero s
  /-- CMDQ is held from acceptance to completion only (10_state R44). -/
  cmdqIdle : s.busy = false → s.cmdq = 0
  /-- A Nop is never accepted (30_encoding R96). -/
  cmdqBusy : s.busy = true → present s.cmdq ≠ .nop
  /-- Acceptance cleared DONE (10_state R28). -/
  doneBusy : s.busy = true → s.done = false
  /-- RESULT.CODE is at most 3 (60_exceptions R252). -/
  result : s.result ≠ .unknown
  /-- A key word is zero unless it was written since the last completion. -/
  key : unmarkedKeyZero s

/-- The last transaction got the ERROR response (60_exceptions R255). -/
def busErrored (s : State) : Bool :=
  match s.reply with
  | some { resp := .error, rdata := _ } => true
  | _ => false

/-- A state of a safe run. -/
def Safe (s : State) : Prop := Inv s ∧ busErrored s = false

/-! ## The terms in which claims speak of a command -/

/-- The completion record of 43_aead R196 and R197 stands in `t`: RESULT.CODE, DONE and DONE_IP are written, the key,
KEYMASK, CMDQ and the hidden registers are zero, FSM is IDLE and BUSY is 0. -/
def Completed (code : ResultCode) (t : State) : Prop :=
  t.result = code ∧ t.done = true ∧ t.doneIp = true ∧ t.busy = false ∧ t.fsm = .idle
    ∧ t.key = Quad.zero ∧ t.keymask = 0 ∧ t.cmdq = 0 ∧ hiddenZero t

/-- What no command touches: IRQ_EN, the `rst` input, the port's last answer and the agenda. -/
def SameSurroundings (s t : State) : Prop :=
  t.doneIe = s.doneIe ∧ t.rst = s.rst ∧ t.reply = s.reply ∧ t.agenda = s.agenda

/-- AAD_LEN and MSG_LEN are unchanged. -/
def SameLengths (s t : State) : Prop := t.aadLen = s.aadLen ∧ t.msgLen = s.msgLen

/-- Every byte of both buffers reads as before. -/
def SameMemory (s t : State) : Prop := ∀ a, t.mem.read a = s.mem.read a

/-- `MSG[0 .. MSG_LEN-1]` reads as the bytes `bs`, and every other byte as before. -/
def MsgReplaced (s t : State) (bs : List Byte) : Prop :=
  ∀ a, t.mem.read a =
    if msgBase ≤ a ∧ a < msgBase + s.msgLen.toNat then bs.getD (a - msgBase) 0 else s.mem.read a

/-- A command that completed without output: only RESULT, DONE, DONE_IP and the zeroization of R197 (43_aead R198). -/
def NoOutput (s t : State) : Prop :=
  SameMemory s t ∧ t.tag = s.tag ∧ SameLengths s t ∧ SameSurroundings s t

/-- The operands with which WRAP, UNWRAP (`usesAad`) and MAC pass validation, but for TLEN (43_aead R192, R193). -/
def OperandsValid (usesAad : Bool) (s : State) : Prop :=
  s.keymask = 0xF ∧ (usesAad = true → s.aadLen.toNat ≤ 256) ∧ s.msgLen.toNat ≤ 1024

/-- What the host can read at the port in a state, at any offset and size. -/
def portView (s : State) (addr : Offset) (size : Nat) : Except Fault Word := memRead s addr size

/-- A 4-byte write of `v` at `addr` leaves the block as `t`: at the port, and as the step that takes it off the agenda
while `rst` is released, with the response OKAY. -/
def WritesOkay (s : State) (addr : Offset) (v : Word) (t : State) : Prop :=
  memWrite addr 4 v s = .next t ∧
    ∀ rest, s.rst = false → s.agenda = .bus (.write addr 4 v) :: rest →
      step s = .next { t with agenda := rest, reply := some { resp := .okay, rdata := none } }

/-- The next step takes a write to KEYi of an idle core. -/
def TakesKeyWrite (i : Fin 4) (s : State) : Prop :=
  s.rst = false ∧ s.busy = false ∧
    ∃ addr v rest, addr.toNat = 0x040 + 4 * i.val ∧ s.agenda = .bus (.write addr 4 v) :: rest

/-- The state after `n` steps, if every step answers a next state. -/
def stateAfter (s : State) : Nat → Option State
  | 0 => some s
  | n + 1 =>
    match step s with
    | .next t => stateAfter t n
    | .fault _ => none
    | .refused _ => none

end Sys2Proof.Machine
end

