-- ==== Sys2Proof/Certificates/Slice0/Obligations.lean ====
section
/-!
DEFINITION. The statements for the provers, from the numbered rules of spec/.
-/

open Sys2Proof Sys2Proof.Machine

/-! ## Encoding and decoding -/

/-- Decoding an encoded well-formed command gives it back, and leaves the bytes after it (30_encoding R90, R91, R93). -/
def Obligations.DecodeEncodeRoundTrip : Prop :=
  ∀ (i : Instr) (rest : List Byte), i.wf = true → decode (encode i ++ rest) = .ok (i, rest)

/-- Every 32-bit word is the encoding of the well-formed command it decodes to (30_encoding R90, R96: total). -/
def Obligations.EncodeDecodeRoundTrip : Prop :=
  ∀ w : Word, encodeWord (decodeWord w) = w ∧ (decodeWord w).wf = true

/-- `decode` of 30_encoding R96 answers Nop exactly on the words of the NOP row, and else OP and TLEN. -/
def Obligations.NopIsExactlyZeroOpWithoutReservedBits : Prop :=
  ∀ w : Word,
    (present w = .nop ↔ ∃ tlen, decodeWord w = .nop tlen) ∧
    (present w = .nop ↔ w.extractLsb' 4 4 = 0 ∧ w.extractLsb' 16 16 = 0 ∧ w.extractLsb' 0 4 = 0) ∧
    (present w ≠ .nop → present w = .cmd (w.extractLsb' 0 4) (w.extractLsb' 8 8))

/-- The canonical words of 30_encoding R91 and the words of 95_test_vectors 2.8 decode to their commands. -/
def Obligations.CanonicalWordsDecode : Prop :=
  decodeWord 0x00000000 = .nop 0 ∧ decodeWord 0x00001001 = .wrap 16 ∧ decodeWord 0x00001002 = .unwrap 16 ∧
  decodeWord 0x00001003 = .mac 16 ∧ decodeWord 0x00000004 = .clear 0 ∧ decodeWord 0x00001005 = .reserved5 16 ∧
  decodeWord 0x0000000F = .reservedF 0 ∧ decodeWord 0x00000010 = .reservedBits 0 1 0 0 ∧
  decodeWord 0x80001001 = .reservedBits 1 0 16 0x8000

/-! ## Permutation -/

/-- The S-box is the table of 40_permutation R121, and its inverse table undoes it. -/
def Obligations.SboxIsTheSpongentTable : Prop :=
  (List.range 16).map (fun x => sbox (BitVec.ofNat 4 x)) =
    [0xE, 0xD, 0xB, 0x0, 0x2, 0x1, 0x4, 0xF, 0x7, 0xA, 0x8, 0x5, 0x9, 0xC, 0x3, 0x6] ∧
  ∀ y : BitVec 4, sbox ([3, 5, 4, 0xE, 6, 0xB, 0xF, 8, 0xA, 0xC, 9, 2, 0xD, 1, 0, 7].getD y.toNat 0) = y

/-- `sBoxLayer` applies the S-box to each of the 44 nibbles, each independent of the others (40_permutation R122). -/
def Obligations.SBoxLayerSubstitutesEachNibble : Prop :=
  ∀ (S : Sponge) (k : Nat), k < 44 → (sBoxLayer S).extractLsb' (4 * k) 4 = sbox (S.extractLsb' (4 * k) 4)

/-- The wiring: `44 j mod 175` below 175, the identity at 175, undone by `4 i mod 175` (40_permutation R123). -/
def Obligations.WiringIsABijection : Prop :=
  pwire 175 = 175 ∧
  (∀ j < 175, pwire j = 44 * j % 175 ∧ pwire j < 175 ∧ 4 * pwire j % 175 = j) ∧
  (∀ i < 175, pwire (4 * i % 175) = i)

/-- `pLayer` moves bit `j` of its input to bit `P(j)` of its output (40_permutation R124). -/
def Obligations.PLayerMovesEachBit : Prop :=
  ∀ (S : Sponge) (j : Nat), j < 176 → (pLayer S).getLsbD (pwire j) = S.getLsbD j

/-- `addRC` XORs the counter into the seven lowest bits and its reversal into the seven highest, and leaves every other
bit (40_permutation R125). -/
def Obligations.AddRcTouchesTwoFields : Prop :=
  ∀ (S : Sponge) (lc : BitVec 7) (i : Nat), i < 176 →
    (addRC S lc).getLsbD i =
      (if i < 7 then S.getLsbD i ^^ lc.getLsbD i
       else if 169 ≤ i then S.getLsbD i ^^ lc.getLsbD (175 - i)
       else S.getLsbD i)

/-- The counters of the 90 rounds start at 0x45 and are distinct and never 0; the sequence has period 127
(40_permutation R126). -/
def Obligations.RoundCountersAreDistinct : Prop :=
  lcAt 0 = 0x45 ∧ ((List.range 90).map lcAt).Nodup ∧ (∀ i < 127, lcAt i ≠ 0) ∧ lcAt 127 = 0x45 ∧
  ∀ i < 126, lcAt (i + 1) = ((lcAt i <<< 1) ||| (BitVec.ofBool ((lcAt i).getLsbD 6 ^^ (lcAt i).getLsbD 5)).setWidth 7)

/-- `permute` is a fixed bijection (40_permutation R120). -/
def Obligations.PermuteIsABijection : Prop := Function.Bijective permute

/-! ## Padding and domain separation -/

/-- `pad` gives `L div RB + 1` blocks of two bytes, which joined are the message, one byte 0x80, and at most one byte
0x00 (41_padding R150 to R152). -/
def Obligations.PadFillsBlocks : Prop :=
  ∀ M : List Byte,
    (pad M).length = M.length / 2 + 1 ∧ (∀ blk ∈ pad M, blk.length = 2) ∧
    (pad M).flatten = M ++ [0x80] ++ List.replicate (1 - M.length % 2) 0

/-- Distinct messages pad to distinct block sequences (41_padding R154). -/
def Obligations.PadIsInjective : Prop := Function.Injective pad

/-- A phase's constant stands on its first block only (41_padding R156). -/
def Obligations.PhaseConstantOnFirstBlockOnly : Prop :=
  ∀ (M : List Byte) (ds : Byte) (b : Nat) (blk : Block), (pad M)[b]? = some blk →
    (phasePairs M ds)[b]? = some (blk, if b = 0 then ds else 0)

/-- AAD and text phases of equal pair sequences hold equal AAD and equal text: bytes in one role are never confused
with bytes in the other (41_padding R158). -/
def Obligations.PhasesSeparateRoles : Prop :=
  ∀ A A' P P' : List Byte,
    phasePairs A params.dsAad ++ phasePairs P params.dsText =
      phasePairs A' params.dsAad ++ phasePairs P' params.dsText → A = A' ∧ P = P'

/-! ## Sponge -/

/-- `xor_block` XORs byte `i` of the block into `SB[i]` of the rate and never touches the capacity (42_sponge R171). -/
def Obligations.XorBlockLeavesCapacity : Prop :=
  ∀ (S : Sponge) (blk : Block) (j : Nat), j < 22 →
    stateByte (xorBlock S blk) j = if j < 2 then stateByte S j ^^^ blk.getD j 0 else stateByte S j

/-- `absorb_phase` absorbs each padded block: XOR it in, XOR the constant into `SB[2]` on the first block, permute
(42_sponge R173). -/
def Obligations.AbsorbPhaseFoldsBlocks : Prop :=
  ∀ (S : Sponge) (M : List Byte) (ds : Byte),
    absorbPhase S M ds =
      (pad M).tail.foldl absorb (permute (xorByte (xorBlock S ((pad M).headD [])) 2 ds))

/-- Byte `i` of a squeeze is byte `i mod 2` of the rate after `i div 2` permutations; the state is not permuted before
the first read nor after the last (42_sponge R175). -/
def Obligations.SqueezeReadsSuccessiveRates : Prop :=
  ∀ (S : Sponge) (n : Nat),
    (squeeze S n).1.length = n ∧
    (∀ i < n, (squeeze S n).1.getD i 0 = stateByte (permute^[i / 2] S) (i % 2)) ∧
    (squeeze S n).2 = permute^[(n - 1) / 2] S

/-- `decrypt_text` undoes `encrypt_text` and reaches the same state (42_sponge R177). -/
def Obligations.DecryptTextInvertsEncryptText : Prop :=
  ∀ (S : Sponge) (P : List Byte), decryptText S (encryptText S P).1 = (P, (encryptText S P).2)

/-- Ciphertext and tag lengths, and each ciphertext byte as plaintext XOR the rate just before its block is absorbed
(43_aead R202). -/
def Obligations.CiphertextIsPlaintextXorKeystream : Prop :=
  ∀ K A P : List Byte,
    (wrapFn K A P).1.length = P.length ∧ (wrapFn K A P).2.length = 16 ∧
    ∀ i < P.length,
      (wrapFn K A P).1.getD i 0 =
        P.getD i 0 ^^^
          stateByte
            (((phasePairs P params.dsText).take (i / 2)).foldl absorbPair
              (absorbPhase (initSponge K) A params.dsAad))
            (i % 2)

/-- Unwrapping what WRAP made recovers the plaintext with Success (43_aead R215). -/
def Obligations.UnwrapInvertsWrap : Prop :=
  ∀ K A P : List Byte, unwrapFn K A (wrapFn K A P).1 (wrapFn K A P).2 = (P, .success)

/-- `ct_equal` says of two 16-byte tags whether they are equal (43_aead R213). -/
def Obligations.TagComparisonCoversAllBytes : Prop :=
  ∀ T Tin : List Byte, T.length = 16 → Tin.length = 16 → (ctEqual T Tin = true ↔ T = Tin)

/-- A supplied 16-byte tag other than the one WRAP made, in any bit, gives BadTag and as many zero bytes as the
ciphertext has (43_aead R216 for the tag, R214). -/
def Obligations.ForgedTagIsRejected : Prop :=
  ∀ (K A P Tin : List Byte), Tin.length = 16 → Tin ≠ (wrapFn K A P).2 →
    unwrapFn K A (wrapFn K A P).1 Tin = (List.replicate P.length 0, .badTag)

/-! ## Commands: completion, results and frames -/

/-- NOP runs in every state and changes nothing (44_control R230). -/
def Obligations.NopChangesNothing : Prop :=
  ∀ (tlen : Byte) (s : State), exec (.nop tlen) s = .next s

/-- CLEAR completes with Success in every state: both buffers, TAG, the lengths and the key are zero, and only IRQ_EN
of the host-written registers keeps its value (44_control R232). -/
def Obligations.ClearZeroizesInputs : Prop :=
  ∀ (tlen : Byte) (s : State), ∃ t, exec (.clear tlen) s = .next t ∧ Completed .success t ∧
    t.tag = Quad.zero ∧ t.aadLen = 0 ∧ t.msgLen = 0 ∧ SameSurroundings s t ∧
    ∀ a, t.mem.read a = if bufferOffset a = true then 0 else s.mem.read a

/-- CLEAR leaves the reset state but for IRQ_EN, RESULT, DONE and DONE_IP (44_control R233), and but for `rst`
and the model's own fields `reply` and `agenda` (log 1, log 2). -/
def Obligations.ClearEqualsReset : Prop :=
  ∀ (tlen : Byte) (s : State), Inv s →
    exec (.clear tlen) s = .next { State.reset with
      doneIe := s.doneIe, result := .success, done := true, doneIp := true
      rst := s.rst, reply := s.reply, agenda := s.agenda }

/-- Every reserved opcode, and every word with a reserved bit set, completes with Fail in every state and writes no
output (44_control R234, 43_aead R191). -/
def Obligations.ReservedCommandsFail : Prop :=
  ∀ (tlen : Byte) (op rsv0 : BitVec 4) (rsv1 : BitVec 16) (s : State),
    ∀ i ∈ [Instr.reserved5 tlen, .reserved6 tlen, .reserved7 tlen, .reserved8 tlen, .reserved9 tlen, .reservedA tlen,
        .reservedB tlen, .reservedC tlen, .reservedD tlen, .reservedE tlen, .reservedF tlen,
        .reservedBits op rsv0 tlen rsv1],
      ∃ t, exec i s = .next t ∧ Completed .fail t ∧ NoOutput s t

/-- WRAP on valid operands completes with Success: ciphertext over the plaintext in place, the tag in TAG, and every
other byte, length and register unchanged (43_aead R200). -/
def Obligations.WrapCompletes : Prop :=
  ∀ s : State, s.mem.wf = true → OperandsValid true s → ∃ t, exec (.wrap 16) s = .next t ∧ Completed .success t ∧
    MsgReplaced s t (wrapFn (keyOperand s) (aadOperand s) (msgOperand s)).1 ∧
    t.tag.bytes = (wrapFn (keyOperand s) (aadOperand s) (msgOperand s)).2 ∧
    SameLengths s t ∧ SameSurroundings s t

/-- UNWRAP on valid operands completes: with the expected tag supplied, Success and the plaintext in place; with any
other, BadTag and `MSG_LEN` zero bytes; TAG keeps the supplied tag on both outcomes (43_aead R210, R214). -/
def Obligations.UnwrapCompletes : Prop :=
  ∀ s : State, s.mem.wf = true → OperandsValid true s → ∃ t, exec (.unwrap 16) s = .next t ∧
    t.tag = s.tag ∧ SameLengths s t ∧ SameSurroundings s t ∧
    let r := decryptText (absorbPhase (initSponge (keyOperand s)) (aadOperand s) params.dsAad) (msgOperand s)
    if tagOf r.2 = tagOperand s then Completed .success t ∧ MsgReplaced s t r.1
    else Completed .badTag t ∧ MsgReplaced s t (List.replicate s.msgLen.toNat 0)

/-- MAC on valid operands, whatever AAD_LEN, completes with Success: the tag in TAG, and every buffer byte and length
unchanged (43_aead R220). -/
def Obligations.MacCompletes : Prop :=
  ∀ s : State, OperandsValid false s → ∃ t, exec (.mac 16) s = .next t ∧ Completed .success t ∧
    t.tag.bytes = macFn (keyOperand s) (msgOperand s) ∧ SameMemory s t ∧ SameLengths s t ∧ SameSurroundings s t

/-- The validation checks of WRAP, UNWRAP and MAC, in the order of 43_aead R195: the first that fails decides the code,
and the command then completes without output (R192 to R194, R198). -/
def Obligations.FailedChecksDecideTheCode : Prop :=
  ∀ (tlen : Byte) (s : State),
    (∀ i ∈ [Instr.wrap tlen, .unwrap tlen],
      (s.keymask ≠ 0xF ∨ 256 < s.aadLen.toNat ∨ 1024 < s.msgLen.toNat →
        ∃ t, exec i s = .next t ∧ Completed .fail t ∧ NoOutput s t) ∧
      (OperandsValid true s → tlen ≠ 16 →
        ∃ t, exec i s = .next t ∧ Completed .badHashBitLen t ∧ NoOutput s t)) ∧
    (s.keymask ≠ 0xF ∨ 1024 < s.msgLen.toNat →
      ∃ t, exec (.mac tlen) s = .next t ∧ Completed .fail t ∧ NoOutput s t) ∧
    (OperandsValid false s → tlen ≠ 16 →
      ∃ t, exec (.mac tlen) s = .next t ∧ Completed .badHashBitLen t ∧ NoOutput s t)

/-- For every word that is not a Nop, the meaning of its command is the completion step of 43_aead R196 on that word. -/
def Obligations.ExecIsTheCompletionStep : Prop :=
  ∀ (w : Word) (s : State), present w ≠ .nop → exec (decodeWord w) s = .next (completeStep w s)

/-- Every command but NOP leaves the completion record: key, KEYMASK, CMDQ and hidden state zeroized, DONE, DONE_IP, a
code other than Unknown, and BUSY = 0, whatever the outcome (43_aead R197; 60_exceptions R250, R252). -/
def Obligations.EveryCompletionZeroizes : Prop :=
  ∀ (i : Instr) (s t : State), (∀ tlen, i ≠ .nop tlen) → exec i s = .next t →
    ∃ code, code ≠ .unknown ∧ Completed code t

/-- Over all commands: only CLEAR changes the lengths or an AAD byte; only WRAP, UNWRAP and CLEAR change a MSG byte,
and below MSG_LEN only for the first two; only WRAP, MAC and CLEAR change TAG; none touches its surroundings
(10_state R34 to R39). -/
def Obligations.OnlyNamedCommandsWriteOutputs : Prop :=
  ∀ (i : Instr) (s t : State), exec i s = .next t →
    SameSurroundings s t ∧
    ((∀ tlen, i ≠ .clear tlen) →
      SameLengths s t ∧
      (∀ a, a < msgBase ∨ msgBase + s.msgLen.toNat ≤ a → t.mem.read a = s.mem.read a) ∧
      ((∀ tlen, i ≠ .wrap tlen ∧ i ≠ .unwrap tlen) → SameMemory s t) ∧
      ((∀ tlen, i ≠ .wrap tlen ∧ i ≠ .mac tlen) → t.tag = s.tag))

/-- After any completed command, WRAP, UNWRAP and MAC fail until all four key words are loaded again: a step sets
KEYMASK bit `k` only by taking a write to KEYk; and in every state that a run reaches from the completion without taking
a write to some KEYk, the three commands complete with Fail and no output (70_reset R286). The agenda, which orders the
steps of a run, is the model's choice (log 1). -/
def Obligations.KeyMustBeReloaded : Prop :=
  (∀ (s t : State) (k : Fin 4), step s = .next t → t.keymask.getLsbD k.val = true →
    s.keymask.getLsbD k.val = true ∨ TakesKeyWrite k s) ∧
  ∀ (i : Instr) (s t : State), (∀ n, i ≠ .nop n) → exec i s = .next t →
    ∀ (n : Nat) (u : State) (k : Fin 4), stateAfter t n = some u →
      (∀ m < n, ∀ x, stateAfter t m = some x → ¬TakesKeyWrite k x) →
      ∀ (tlen : Byte), ∀ j ∈ [Instr.wrap tlen, .unwrap tlen, .mac tlen],
        ∃ u', exec j u = .next u' ∧ Completed .fail u' ∧ NoOutput u u'

/-- A command is a pure function of the inputs loaded for it: two states that agree on the key, KEYMASK, the lengths,
the tag and the operand bytes give the same code, tag and message bytes, whatever else they hold (10_state R46). -/
def Obligations.OutputsDependOnlyOnOperands : Prop :=
  ∀ (tlen : Byte) (s s' t t' : State),
    s.keymask = s'.keymask → s.key = s'.key → s.tag = s'.tag → s.aadLen = s'.aadLen → s.msgLen = s'.msgLen →
    s.mem.wf = true → s'.mem.wf = true → aadOperand s = aadOperand s' → msgOperand s = msgOperand s' →
    ∀ i ∈ [Instr.wrap tlen, .unwrap tlen, .mac tlen], exec i s = .next t → exec i s' = .next t' →
      t.result = t'.result ∧ t.tag = t'.tag ∧ msgOperand t = msgOperand t'

/-- Presenting a word to an idle core and then completing it is the command's meaning: acceptance adds nothing that the
completion leaves (43_aead R190, R196). -/
def Obligations.AcceptanceIsAbsorbedByCompletion : Prop :=
  ∀ (w : Word) (s : State), present w ≠ .nop → exec (decodeWord w) (accept w s) = exec (decodeWord w) s

/-! ## Reset and the invariant -/

/-- The reset state: every register, buffer byte and hidden register of 10_state R47 has its value, as the host reads
it at the port and as the hidden registers hold it, and `irq` is 0. -/
def Obligations.ResetValues : Prop :=
  statusWord State.reset = 0 ∧ resultWord State.reset = 0 ∧ irqEnWord State.reset = 0 ∧ irqStatWord State.reset = 0 ∧
  State.reset.aadLen = 0 ∧ State.reset.msgLen = 0 ∧ State.reset.key = Quad.zero ∧ State.reset.tag = Quad.zero ∧
  (∀ a, State.reset.mem.read a = 0) ∧ hiddenZero State.reset ∧ State.reset.cmdq = 0 ∧ State.reset.fsm = .idle ∧
  irq State.reset = false

/-- The invariant holds at reset. -/
def Obligations.ResetMeetsInv : Prop := Inv State.reset

/-- Every step from a state that meets the invariant gives a state that meets it (10_state R28, R36, R43 to R45;
60_exceptions R252). That FSM is CHECK while the core is busy is the model's choice (log 4), as is the canonical form of
memory (log 7), and as is that the hidden registers are zero also while the core is busy (log 13), where the spec lets
them hold any value (93 I16). -/
def Obligations.StepKeepsInv : Prop := ∀ s t : State, Inv s → step s = .next t → Inv t

/-- No state stops the machine: every step answers a next state. That a refused access is answered with ERROR and the
machine goes on is the model's reading of 60_exceptions R256 (log 3), and that a step while `rst` is asserted leaves the
state as it is, where 93 I18 speaks of no step, is its choice (log 5). -/
def Obligations.StepNeverStops : Prop := ∀ s : State, ∃ t, step s = .next t

/-- A change of `rst` is taken in every state, also while the core is busy, and its assertion changes nothing else of
the block. While it is asserted `irq` is low and both agents wait, whatever the agenda holds and however often `rst` is
driven high again; its release leaves the reset state, so a command under way never completes (70_reset R280, R281). The
agenda, that waiting transactions wait, and that a step meanwhile leaves the state as it is, are the model's choice
(log 1, log 5). -/
def Obligations.ResetAbortsTheCommand : Prop :=
  (∀ (s : State) (level : Bool) (rest : List Event), s.rst = false → s.agenda = .rst level :: rest →
    step s = .next { s with rst := level, agenda := rest }) ∧
  ∀ (s : State) (waiting rest : List Event), s.rst = true → (∀ e ∈ waiting, ∀ level, e ≠ .rst level) →
    irq s = false ∧
    (s.agenda = waiting → step s = .next s) ∧
    (s.agenda = waiting ++ .rst true :: rest → step s = .next { s with agenda := waiting ++ rest }) ∧
    (s.agenda = waiting ++ .rst false :: rest → step s = .next { State.reset with agenda := waiting ++ rest })

/-! ## The step: agents, acceptance and the port -/

/-- The core's turn runs the accepted command: where the agenda gives the core its turn, or is empty, the step is the
meaning of the command in CMDQ (43_aead R196). The agenda is the model's choice (log 1). -/
def Obligations.CoreTurnRunsAcceptedCommand : Prop :=
  ∀ (s : State) (rest : List Event), s.rst = false → s.busy = true →
    (s.agenda = .core :: rest → step s = exec (decodeWord s.cmdq) { s with agenda := rest }) ∧
    (s.agenda = [] → step s = exec (decodeWord s.cmdq) s)

/-- A CMD write to an idle core: a Nop's meaning runs at once, any other word is accepted, with DONE cleared and BUSY
set and nothing else of the block changed but CMDQ and the FSM; the write gets OKAY (43_aead R190). That the FSM moves to CHECK
is the model's choice (log 4). -/
def Obligations.CmdWritePresentsACommand : Prop :=
  ∀ (s : State) (w : Word) (rest : List Event), s.rst = false → s.busy = false →
    s.agenda = .bus (.write 0x010 4 w) :: rest →
    step s = .next
      (if present w = .nop then { s with agenda := rest, reply := some { resp := .okay, rdata := none } }
       else { s with agenda := rest, reply := some { resp := .okay, rdata := none }
                     cmdq := w, done := false, busy := true, fsm := .check })

/-- While BUSY = 1 every access to CMD, AAD_LEN, MSG_LEN, KEY, TAG or a buffer gets the ERROR response with no effect
(20_memory R70; 60_exceptions R255). That the machine goes on is the model's reading of 60_exceptions R256 (log 3). -/
def Obligations.BusyRefusesInputsAndOutputs : Prop :=
  ∀ (s : State) (addr : Offset) (size : Nat) (v : Word) (rest : List Event), s.rst = false → s.busy = true →
    (addr = 0x010 ∨ addr = 0x024 ∨ addr = 0x028 ∨ (0x040 ≤ addr.toNat ∧ addr.toNat < 0x060) ∨ 0x1000 ≤ addr.toNat) →
    (s.agenda = .bus (.read addr size) :: rest →
      step s = .next { s with agenda := rest, reply := some { resp := .error, rdata := some 0 } }) ∧
    (s.agenda = .bus (.write addr size v) :: rest →
      step s = .next { s with agenda := rest, reply := some { resp := .error, rdata := none } })

/-- A transaction of a wrong size, a misaligned one, a narrow one in the register block, and one whose bytes are not all
in one mapped part get the ERROR response with no effect (20_memory R64, R68; 60_exceptions R255). That the machine goes
on is the model's reading of 60_exceptions R256 (log 3). -/
def Obligations.IllegalAccessesGetError : Prop :=
  ∀ (s : State) (addr : Offset) (size : Nat) (v : Word) (rest : List Event), s.rst = false →
    ((size ≠ 1 ∧ size ≠ 2 ∧ size ≠ 4) ∨ addr.toNat % size ≠ 0 ∨ (addr.toNat < 0x1000 ∧ size ≠ 4) ∨
      (0x02C ≤ addr.toNat ∧ addr.toNat < 0x040) ∨ (0x060 ≤ addr.toNat ∧ addr.toNat < 0x1000) ∨
      (0x1100 ≤ addr.toNat ∧ addr.toNat < 0x2000) ∨ 0x2400 ≤ addr.toNat) →
    (s.agenda = .bus (.read addr size) :: rest →
      step s = .next { s with agenda := rest, reply := some { resp := .error, rdata := some 0 } }) ∧
    (s.agenda = .bus (.write addr size v) :: rest →
      step s = .next { s with agenda := rest, reply := some { resp := .error, rdata := none } })

/-- No read changes any state: only the agenda moves on, and the port's answer, which is OKAY with the value that
`MemRead` gives, or ERROR with 0 where it refuses (20_memory R61, R66, R69). That the step answers a next
state also where the read is refused is the model's reading of 60_exceptions R256 (log 3). -/
def Obligations.ReadsHaveNoSideEffect : Prop :=
  ∀ (s : State) (addr : Offset) (size : Nat) (rest : List Event), s.rst = false →
    s.agenda = .bus (.read addr size) :: rest →
    (∀ v, memRead s addr size = .ok v →
      step s = .next { s with agenda := rest, reply := some { resp := .okay, rdata := some v } }) ∧
    (∀ f, memRead s addr size = .error f →
      step s = .next { s with agenda := rest, reply := some { resp := .error, rdata := some 0 } })

/-- A legal write to a buffer of an idle core stores its bytes little-endian, byte `k` at offset `addr + k`, and leaves
every other byte and the rest of the block unchanged (20_memory R65, R67). -/
def Obligations.BufferWriteStoresBytes : Prop :=
  ∀ (s : State) (addr : Offset) (size : Nat) (v : Word) (rest : List Event), s.mem.wf = true → s.rst = false →
    s.busy = false → size ∈ [1, 2, 4] → addr.toNat % size = 0 →
    ((0x1000 ≤ addr.toNat ∧ addr.toNat < 0x1100) ∨ (0x2000 ≤ addr.toNat ∧ addr.toNat < 0x2400)) →
    s.agenda = .bus (.write addr size v) :: rest →
    ∃ m, step s = .next { s with mem := m, agenda := rest, reply := some { resp := .okay, rdata := none } } ∧
      ∀ a, Memory.read m a =
        if addr.toNat ≤ a ∧ a < addr.toNat + size then v.extractLsb' (8 * (a - addr.toNat)) 8 else s.mem.read a

/-- A legal read of a buffer of an idle core gets its bytes little-endian, zero-extended (20_memory R65, R66). The zero
extension is the model's choice (log 8). -/
def Obligations.BufferReadConcatenatesBytes : Prop :=
  ∀ (s : State) (addr : Offset) (size : Nat), s.busy = false → size ∈ [1, 2, 4] → addr.toNat % size = 0 →
    ((0x1000 ≤ addr.toNat ∧ addr.toNat < 0x1100) ∨ (0x2000 ≤ addr.toNat ∧ addr.toNat < 0x2400)) →
    ∃ v : Word, memRead s addr size = .ok v ∧
      ∀ k < 4, v.extractLsb' (8 * k) 8 = if k < size then s.mem.read (addr.toNat + k) else 0

/-- A write to KEYi of an idle core gets OKAY and sets the word and its KEYMASK bit and nothing else, and KEYi still
reads 0 (10_state R36). -/
def Obligations.KeyIsWriteOnly : Prop :=
  ∀ (s : State) (i : Fin 4) (addr : Offset) (v : Word), s.busy = false → addr.toNat = 0x040 + 4 * i.val →
    ∃ t, WritesOkay s addr v t ∧
      t = { s with key := t.key, keymask := t.keymask } ∧
      (∀ j, t.key.get j = if j = i then v else s.key.get j) ∧
      (∀ j : Fin 4, t.keymask.getLsbD j.val = (decide (j = i) || s.keymask.getLsbD j.val)) ∧
      memRead t addr 4 = .ok 0 ∧ memRead s addr 4 = .ok 0

/-- AAD_LEN, MSG_LEN and TAGi read back the whole word last written, and the write gets OKAY and changes nothing else
(10_state R34, R35, R37). -/
def Obligations.ReadWriteRegistersHoldTheirWord : Prop :=
  ∀ (s : State) (v : Word), s.busy = false →
    WritesOkay s 0x024 v { s with aadLen := v } ∧ memRead { s with aadLen := v } 0x024 4 = .ok v ∧
    WritesOkay s 0x028 v { s with msgLen := v } ∧ memRead { s with msgLen := v } 0x028 4 = .ok v ∧
    ∀ (i : Fin 4) (addr : Offset), addr.toNat = 0x050 + 4 * i.val →
      ∃ q, WritesOkay s addr v { s with tag := q } ∧ memRead { s with tag := q } addr 4 = .ok v ∧
        ∀ j, j ≠ i → q.get j = s.tag.get j

/-- The read-only registers: ID, PARAM0, PARAM1 and BUFPARAM read their constants in every state, RESULT the number of
its code with every higher bit 0 (10_state R30, 30_encoding R95), and a write to one of them or to STATUS is ignored with
OKAY (R21 to R25). CMD of an idle core reads 0 (R26). -/
def Obligations.ReadOnlyRegistersIgnoreWrites : Prop :=
  ∀ (s : State) (v : Word),
    memRead s 0x000 4 = .ok 0x53504E54 ∧ memRead s 0x004 4 = .ok 0x005A00B0 ∧
    memRead s 0x008 4 = .ok 0x00101010 ∧ memRead s 0x00C 4 = .ok 0x04000100 ∧
    (∀ c ∈ [(ResultCode.success, (0 : Word)), (.fail, 1), (.badHashBitLen, 2), (.badTag, 3), (.unknown, 4)],
      s.result = c.1 → memRead s 0x018 4 = .ok c.2) ∧
    (s.busy = false → memRead s 0x010 4 = .ok 0) ∧
    ∀ addr ∈ [(0x000 : Offset), 0x004, 0x008, 0x00C, 0x014, 0x018], WritesOkay s addr v s

/-- STATUS read at the port: BUSY in bit 0, DONE in bit 1, KEYMASK in bits 11..8, and every other bit 0, busy or not
(10_state R27 to R29). -/
def Obligations.StatusLayout : Prop :=
  ∀ s : State, ∃ v : Word, memRead s 0x014 4 = .ok v ∧ ∀ i < 32,
    v.getLsbD i =
      (if i = 0 then s.busy else if i = 1 then s.done
       else if 8 ≤ i ∧ i < 12 then s.keymask.getLsbD (i - 8) else false)

/-- The interrupt registers, busy or not: DONE_IE takes bit 0 of a write to IRQ_EN; a write to IRQ_STAT clears DONE_IP
where its bit 0 is 1 and leaves it where it is 0; both get OKAY and change nothing else; and while `rst` is not asserted `irq`
is high exactly where both read 1 (10_state R31 to R33; 60_exceptions R260, R261). -/
def Obligations.InterruptRegistersAndPin : Prop :=
  ∀ (s : State) (v : Word),
    WritesOkay s 0x01C v { s with doneIe := v.getLsbD 0 } ∧
    WritesOkay s 0x020 v { s with doneIp := s.doneIp && !v.getLsbD 0 } ∧
    ∃ e p : Word, memRead s 0x01C 4 = .ok e ∧ memRead s 0x020 4 = .ok p ∧
      e = (if s.doneIe then 1 else 0) ∧ p = (if s.doneIp then 1 else 0) ∧
      (s.rst = false → (irq s = true ↔ p = 1 ∧ e = 1))

/-- While the core is busy, nothing the host can read depends on the key, the tags, the lengths, the buffers, CMDQ or
the hidden registers: two busy states that agree on DONE, KEYMASK, RESULT, IRQ_EN and IRQ_STAT answer every access
alike (10_state R27, 20_memory R70). -/
def Obligations.BusyPortRevealsNoData : Prop :=
  ∀ (s s' : State) (addr : Offset) (size : Nat), s.busy = true → s'.busy = true →
    s.done = s'.done → s.keymask = s'.keymask → s.result = s'.result → s.doneIe = s'.doneIe → s.doneIp = s'.doneIp →
    portView s addr size = portView s' addr size

/-- At no time can the host read the key or the hidden registers (10_state R36, R41). -/
def Obligations.KeyAndStateAreNeverReadable : Prop :=
  ∀ (s s' : State) (addr : Offset) (size : Nat),
    s' = { s with key := s'.key, sponge := s'.sponge, lc := s'.lc, ridx := s'.ridx, fsm := s'.fsm, bidx := s'.bidx
                  sqcnt := s'.sqcnt, diff := s'.diff, tagc := s'.tagc, cmdq := s'.cmdq } →
    portView s addr size = portView s' addr size

/-- Both orders of a completion and a racing STATUS read are runs of the machine: the read gets BUSY = 1 in the one and
BUSY = 0 with DONE = 1 in the other (60_exceptions R258). The agenda is the model's choice (log 1). -/
def Obligations.BothRaceOrdersAreRuns : Prop :=
  ∀ s : State, Inv s → s.rst = false → s.busy = true →
    (∃ t, stateAfter { s with agenda := [.bus (.read 0x014 4), .core] } 1 = some t ∧
      ∃ v, t.reply = some { resp := .okay, rdata := some v } ∧ v.getLsbD 0 = true) ∧
    (∃ t, stateAfter { s with agenda := [.core, .bus (.read 0x014 4)] } 2 = some t ∧
      t.reply = some { resp := .okay, rdata := some 2 })

/-- Weak fairness: while `rst` stays released, an accepted command completes before the agenda is used up and one step
more (00_scope R15). That an empty agenda gives the core its turn is the model's choice (log 1). -/
def Obligations.AcceptedCommandCompletes : Prop :=
  ∀ s : State, Inv s → s.rst = false → s.busy = true → (∀ e ∈ s.agenda, ∀ level, e ≠ .rst level) →
    ∃ k t, k ≤ s.agenda.length + 1 ∧ stateAfter s k = some t ∧ t.busy = false ∧ t.done = true

/-! ## Memory and the datapath -/

/-- Memories in canonical form that read alike are equal. The canonical form is the model's choice (log 7). -/
def Obligations.CanonicalMemoryIsUnique : Prop :=
  ∀ m m' : Memory, m.wf = true → m'.wf = true → (∀ a, m.read a = m'.read a) → m = m'

/-- The reference datapath reaches exactly the state of the completion step, from every accepted command, after
`latency` cycles, which depend on the opcode, the validation outcome and the lengths alone (70_reset R298), and the core
is busy until then (R297; 43_aead R196, R205). The cycle schedule is the model's own choice (log 9). -/
def Obligations.DatapathRefinesCompletion : Prop :=
  (∀ s : State, Inv s → s.busy = true →
    exec (decodeWord s.cmdq) s = .next (cycles s (latency s)) ∧ ∀ n < latency s, (cycles s n).busy = true) ∧
  ∀ s s' : State, opField s.cmdq = opField s'.cmdq → validate s.cmdq s = validate s'.cmdq s' →
    s.aadLen = s'.aadLen → s.msgLen = s'.msgLen → latency s = latency s'
end

