-- ==== Sys2Proof/Laws/State.lean ====
section
/-!
SUPPORT. One lemma for each field of State under each update the model makes, true by unfolding once, so that no later
proof unfolds a record update; and the parameter set's values.
-/

namespace Sys2Proof.Machine

/-! ## Parameters -/

@[simp] theorem rb_eq : rb = 2 := rfl
@[simp] theorem aadBase_eq : aadBase = 0x1000 := rfl
@[simp] theorem msgBase_eq : msgBase = 0x2000 := rfl

/-- The active parameter set meets the constraints of 00_scope R8. -/
theorem params_wf : params.wf = true := by decide

/-- It is a set this model's types are built for. -/
theorem params_supported : params.supported = true := by decide +kernel

/-! ## accept -/

@[simp] theorem accept_busy (w : Word) (s : State) : (accept w s).busy = true := rfl
@[simp] theorem accept_done (w : Word) (s : State) : (accept w s).done = false := rfl
@[simp] theorem accept_keymask (w : Word) (s : State) : (accept w s).keymask = s.keymask := rfl
@[simp] theorem accept_result (w : Word) (s : State) : (accept w s).result = s.result := rfl
@[simp] theorem accept_doneIe (w : Word) (s : State) : (accept w s).doneIe = s.doneIe := rfl
@[simp] theorem accept_doneIp (w : Word) (s : State) : (accept w s).doneIp = s.doneIp := rfl
@[simp] theorem accept_aadLen (w : Word) (s : State) : (accept w s).aadLen = s.aadLen := rfl
@[simp] theorem accept_msgLen (w : Word) (s : State) : (accept w s).msgLen = s.msgLen := rfl
@[simp] theorem accept_key (w : Word) (s : State) : (accept w s).key = s.key := rfl
@[simp] theorem accept_tag (w : Word) (s : State) : (accept w s).tag = s.tag := rfl
@[simp] theorem accept_mem (w : Word) (s : State) : (accept w s).mem = s.mem := rfl
@[simp] theorem accept_sponge (w : Word) (s : State) : (accept w s).sponge = s.sponge := rfl
@[simp] theorem accept_lc (w : Word) (s : State) : (accept w s).lc = s.lc := rfl
@[simp] theorem accept_ridx (w : Word) (s : State) : (accept w s).ridx = s.ridx := rfl
@[simp] theorem accept_fsm (w : Word) (s : State) : (accept w s).fsm = .check := rfl
@[simp] theorem accept_bidx (w : Word) (s : State) : (accept w s).bidx = s.bidx := rfl
@[simp] theorem accept_sqcnt (w : Word) (s : State) : (accept w s).sqcnt = s.sqcnt := rfl
@[simp] theorem accept_diff (w : Word) (s : State) : (accept w s).diff = s.diff := rfl
@[simp] theorem accept_tagc (w : Word) (s : State) : (accept w s).tagc = s.tagc := rfl
@[simp] theorem accept_cmdq (w : Word) (s : State) : (accept w s).cmdq = w := rfl
@[simp] theorem accept_rst (w : Word) (s : State) : (accept w s).rst = s.rst := rfl
@[simp] theorem accept_reply (w : Word) (s : State) : (accept w s).reply = s.reply := rfl
@[simp] theorem accept_agenda (w : Word) (s : State) : (accept w s).agenda = s.agenda := rfl

/-! ## zeroize -/

@[simp] theorem zeroize_busy (s : State) : (zeroize s).busy = s.busy := rfl
@[simp] theorem zeroize_done (s : State) : (zeroize s).done = s.done := rfl
@[simp] theorem zeroize_keymask (s : State) : (zeroize s).keymask = 0 := rfl
@[simp] theorem zeroize_result (s : State) : (zeroize s).result = s.result := rfl
@[simp] theorem zeroize_doneIe (s : State) : (zeroize s).doneIe = s.doneIe := rfl
@[simp] theorem zeroize_doneIp (s : State) : (zeroize s).doneIp = s.doneIp := rfl
@[simp] theorem zeroize_aadLen (s : State) : (zeroize s).aadLen = s.aadLen := rfl
@[simp] theorem zeroize_msgLen (s : State) : (zeroize s).msgLen = s.msgLen := rfl
@[simp] theorem zeroize_key (s : State) : (zeroize s).key = Quad.zero := rfl
@[simp] theorem zeroize_tag (s : State) : (zeroize s).tag = s.tag := rfl
@[simp] theorem zeroize_mem (s : State) : (zeroize s).mem = s.mem := rfl
@[simp] theorem zeroize_sponge (s : State) : (zeroize s).sponge = 0 := rfl
@[simp] theorem zeroize_lc (s : State) : (zeroize s).lc = 0 := rfl
@[simp] theorem zeroize_ridx (s : State) : (zeroize s).ridx = 0 := rfl
@[simp] theorem zeroize_fsm (s : State) : (zeroize s).fsm = .idle := rfl
@[simp] theorem zeroize_bidx (s : State) : (zeroize s).bidx = 0 := rfl
@[simp] theorem zeroize_sqcnt (s : State) : (zeroize s).sqcnt = 0 := rfl
@[simp] theorem zeroize_diff (s : State) : (zeroize s).diff = 0 := rfl
@[simp] theorem zeroize_tagc (s : State) : (zeroize s).tagc = Quad.zero := rfl
@[simp] theorem zeroize_cmdq (s : State) : (zeroize s).cmdq = 0 := rfl
@[simp] theorem zeroize_rst (s : State) : (zeroize s).rst = s.rst := rfl
@[simp] theorem zeroize_reply (s : State) : (zeroize s).reply = s.reply := rfl
@[simp] theorem zeroize_agenda (s : State) : (zeroize s).agenda = s.agenda := rfl

/-! ## complete -/

@[simp] theorem complete_busy (c : ResultCode) (s : State) : (complete c s).busy = false := rfl
@[simp] theorem complete_done (c : ResultCode) (s : State) : (complete c s).done = true := rfl
@[simp] theorem complete_keymask (c : ResultCode) (s : State) : (complete c s).keymask = 0 := rfl
@[simp] theorem complete_result (c : ResultCode) (s : State) : (complete c s).result = c := rfl
@[simp] theorem complete_doneIe (c : ResultCode) (s : State) : (complete c s).doneIe = s.doneIe := rfl
@[simp] theorem complete_doneIp (c : ResultCode) (s : State) : (complete c s).doneIp = true := rfl
@[simp] theorem complete_aadLen (c : ResultCode) (s : State) : (complete c s).aadLen = s.aadLen := rfl
@[simp] theorem complete_msgLen (c : ResultCode) (s : State) : (complete c s).msgLen = s.msgLen := rfl
@[simp] theorem complete_key (c : ResultCode) (s : State) : (complete c s).key = Quad.zero := rfl
@[simp] theorem complete_tag (c : ResultCode) (s : State) : (complete c s).tag = s.tag := rfl
@[simp] theorem complete_mem (c : ResultCode) (s : State) : (complete c s).mem = s.mem := rfl
@[simp] theorem complete_sponge (c : ResultCode) (s : State) : (complete c s).sponge = 0 := rfl
@[simp] theorem complete_lc (c : ResultCode) (s : State) : (complete c s).lc = 0 := rfl
@[simp] theorem complete_ridx (c : ResultCode) (s : State) : (complete c s).ridx = 0 := rfl
@[simp] theorem complete_fsm (c : ResultCode) (s : State) : (complete c s).fsm = .idle := rfl
@[simp] theorem complete_bidx (c : ResultCode) (s : State) : (complete c s).bidx = 0 := rfl
@[simp] theorem complete_sqcnt (c : ResultCode) (s : State) : (complete c s).sqcnt = 0 := rfl
@[simp] theorem complete_diff (c : ResultCode) (s : State) : (complete c s).diff = 0 := rfl
@[simp] theorem complete_tagc (c : ResultCode) (s : State) : (complete c s).tagc = Quad.zero := rfl
@[simp] theorem complete_cmdq (c : ResultCode) (s : State) : (complete c s).cmdq = 0 := rfl
@[simp] theorem complete_rst (c : ResultCode) (s : State) : (complete c s).rst = s.rst := rfl
@[simp] theorem complete_reply (c : ResultCode) (s : State) : (complete c s).reply = s.reply := rfl
@[simp] theorem complete_agenda (c : ResultCode) (s : State) : (complete c s).agenda = s.agenda := rfl

/-! ## clearEffects -/

@[simp] theorem clearEffects_busy (s : State) : (clearEffects s).busy = s.busy := rfl
@[simp] theorem clearEffects_done (s : State) : (clearEffects s).done = s.done := rfl
@[simp] theorem clearEffects_keymask (s : State) : (clearEffects s).keymask = s.keymask := rfl
@[simp] theorem clearEffects_result (s : State) : (clearEffects s).result = s.result := rfl
@[simp] theorem clearEffects_doneIe (s : State) : (clearEffects s).doneIe = s.doneIe := rfl
@[simp] theorem clearEffects_doneIp (s : State) : (clearEffects s).doneIp = s.doneIp := rfl
@[simp] theorem clearEffects_aadLen (s : State) : (clearEffects s).aadLen = 0 := rfl
@[simp] theorem clearEffects_msgLen (s : State) : (clearEffects s).msgLen = 0 := rfl
@[simp] theorem clearEffects_key (s : State) : (clearEffects s).key = s.key := rfl
@[simp] theorem clearEffects_tag (s : State) : (clearEffects s).tag = Quad.zero := rfl
@[simp] theorem clearEffects_mem (s : State) : (clearEffects s).mem = (s.mem.zeroRange aadBase params.aadMax).zeroRange msgBase params.msgMax := rfl
@[simp] theorem clearEffects_sponge (s : State) : (clearEffects s).sponge = s.sponge := rfl
@[simp] theorem clearEffects_lc (s : State) : (clearEffects s).lc = s.lc := rfl
@[simp] theorem clearEffects_ridx (s : State) : (clearEffects s).ridx = s.ridx := rfl
@[simp] theorem clearEffects_fsm (s : State) : (clearEffects s).fsm = s.fsm := rfl
@[simp] theorem clearEffects_bidx (s : State) : (clearEffects s).bidx = s.bidx := rfl
@[simp] theorem clearEffects_sqcnt (s : State) : (clearEffects s).sqcnt = s.sqcnt := rfl
@[simp] theorem clearEffects_diff (s : State) : (clearEffects s).diff = s.diff := rfl
@[simp] theorem clearEffects_tagc (s : State) : (clearEffects s).tagc = s.tagc := rfl
@[simp] theorem clearEffects_cmdq (s : State) : (clearEffects s).cmdq = s.cmdq := rfl
@[simp] theorem clearEffects_rst (s : State) : (clearEffects s).rst = s.rst := rfl
@[simp] theorem clearEffects_reply (s : State) : (clearEffects s).reply = s.reply := rfl
@[simp] theorem clearEffects_agenda (s : State) : (clearEffects s).agenda = s.agenda := rfl

/-! ## writeMsg -/

@[simp] theorem writeMsg_busy (bs : List Byte) (s : State) : (s.writeMsg bs).busy = s.busy := rfl
@[simp] theorem writeMsg_done (bs : List Byte) (s : State) : (s.writeMsg bs).done = s.done := rfl
@[simp] theorem writeMsg_keymask (bs : List Byte) (s : State) : (s.writeMsg bs).keymask = s.keymask := rfl
@[simp] theorem writeMsg_result (bs : List Byte) (s : State) : (s.writeMsg bs).result = s.result := rfl
@[simp] theorem writeMsg_doneIe (bs : List Byte) (s : State) : (s.writeMsg bs).doneIe = s.doneIe := rfl
@[simp] theorem writeMsg_doneIp (bs : List Byte) (s : State) : (s.writeMsg bs).doneIp = s.doneIp := rfl
@[simp] theorem writeMsg_aadLen (bs : List Byte) (s : State) : (s.writeMsg bs).aadLen = s.aadLen := rfl
@[simp] theorem writeMsg_msgLen (bs : List Byte) (s : State) : (s.writeMsg bs).msgLen = s.msgLen := rfl
@[simp] theorem writeMsg_key (bs : List Byte) (s : State) : (s.writeMsg bs).key = s.key := rfl
@[simp] theorem writeMsg_tag (bs : List Byte) (s : State) : (s.writeMsg bs).tag = s.tag := rfl
@[simp] theorem writeMsg_mem (bs : List Byte) (s : State) : (s.writeMsg bs).mem = s.mem.writeBytes msgBase bs := rfl
@[simp] theorem writeMsg_sponge (bs : List Byte) (s : State) : (s.writeMsg bs).sponge = s.sponge := rfl
@[simp] theorem writeMsg_lc (bs : List Byte) (s : State) : (s.writeMsg bs).lc = s.lc := rfl
@[simp] theorem writeMsg_ridx (bs : List Byte) (s : State) : (s.writeMsg bs).ridx = s.ridx := rfl
@[simp] theorem writeMsg_fsm (bs : List Byte) (s : State) : (s.writeMsg bs).fsm = s.fsm := rfl
@[simp] theorem writeMsg_bidx (bs : List Byte) (s : State) : (s.writeMsg bs).bidx = s.bidx := rfl
@[simp] theorem writeMsg_sqcnt (bs : List Byte) (s : State) : (s.writeMsg bs).sqcnt = s.sqcnt := rfl
@[simp] theorem writeMsg_diff (bs : List Byte) (s : State) : (s.writeMsg bs).diff = s.diff := rfl
@[simp] theorem writeMsg_tagc (bs : List Byte) (s : State) : (s.writeMsg bs).tagc = s.tagc := rfl
@[simp] theorem writeMsg_cmdq (bs : List Byte) (s : State) : (s.writeMsg bs).cmdq = s.cmdq := rfl
@[simp] theorem writeMsg_rst (bs : List Byte) (s : State) : (s.writeMsg bs).rst = s.rst := rfl
@[simp] theorem writeMsg_reply (bs : List Byte) (s : State) : (s.writeMsg bs).reply = s.reply := rfl
@[simp] theorem writeMsg_agenda (bs : List Byte) (s : State) : (s.writeMsg bs).agenda = s.agenda := rfl

/-! ## writeTag -/

@[simp] theorem writeTag_busy (bs : List Byte) (s : State) : (s.writeTag bs).busy = s.busy := rfl
@[simp] theorem writeTag_done (bs : List Byte) (s : State) : (s.writeTag bs).done = s.done := rfl
@[simp] theorem writeTag_keymask (bs : List Byte) (s : State) : (s.writeTag bs).keymask = s.keymask := rfl
@[simp] theorem writeTag_result (bs : List Byte) (s : State) : (s.writeTag bs).result = s.result := rfl
@[simp] theorem writeTag_doneIe (bs : List Byte) (s : State) : (s.writeTag bs).doneIe = s.doneIe := rfl
@[simp] theorem writeTag_doneIp (bs : List Byte) (s : State) : (s.writeTag bs).doneIp = s.doneIp := rfl
@[simp] theorem writeTag_aadLen (bs : List Byte) (s : State) : (s.writeTag bs).aadLen = s.aadLen := rfl
@[simp] theorem writeTag_msgLen (bs : List Byte) (s : State) : (s.writeTag bs).msgLen = s.msgLen := rfl
@[simp] theorem writeTag_key (bs : List Byte) (s : State) : (s.writeTag bs).key = s.key := rfl
@[simp] theorem writeTag_tag (bs : List Byte) (s : State) : (s.writeTag bs).tag = Quad.ofBytes bs := rfl
@[simp] theorem writeTag_mem (bs : List Byte) (s : State) : (s.writeTag bs).mem = s.mem := rfl
@[simp] theorem writeTag_sponge (bs : List Byte) (s : State) : (s.writeTag bs).sponge = s.sponge := rfl
@[simp] theorem writeTag_lc (bs : List Byte) (s : State) : (s.writeTag bs).lc = s.lc := rfl
@[simp] theorem writeTag_ridx (bs : List Byte) (s : State) : (s.writeTag bs).ridx = s.ridx := rfl
@[simp] theorem writeTag_fsm (bs : List Byte) (s : State) : (s.writeTag bs).fsm = s.fsm := rfl
@[simp] theorem writeTag_bidx (bs : List Byte) (s : State) : (s.writeTag bs).bidx = s.bidx := rfl
@[simp] theorem writeTag_sqcnt (bs : List Byte) (s : State) : (s.writeTag bs).sqcnt = s.sqcnt := rfl
@[simp] theorem writeTag_diff (bs : List Byte) (s : State) : (s.writeTag bs).diff = s.diff := rfl
@[simp] theorem writeTag_tagc (bs : List Byte) (s : State) : (s.writeTag bs).tagc = s.tagc := rfl
@[simp] theorem writeTag_cmdq (bs : List Byte) (s : State) : (s.writeTag bs).cmdq = s.cmdq := rfl
@[simp] theorem writeTag_rst (bs : List Byte) (s : State) : (s.writeTag bs).rst = s.rst := rfl
@[simp] theorem writeTag_reply (bs : List Byte) (s : State) : (s.writeTag bs).reply = s.reply := rfl
@[simp] theorem writeTag_agenda (bs : List Byte) (s : State) : (s.writeTag bs).agenda = s.agenda := rfl

end Sys2Proof.Machine
end

