-- ==== Sys2Proof/Laws/Memory.lean ====
section
/-!
SUPPORT. Memory: what a read gives after each operation, and that every operation keeps the canonical form.
-/

namespace Sys2Proof.Machine

@[simp] theorem Memory.read_nil (a : Nat) : Memory.read [] a = 0 := rfl

theorem Memory.wfFrom_cons {lo a : Nat} {v : Byte} {rest : Memory} :
    Memory.wfFrom lo ((a, v) :: rest) = true ↔
      lo ≤ a ∧ bufferOffset a = true ∧ v ≠ 0 ∧ Memory.wfFrom (a + 1) rest = true := by
  simp [Memory.wfFrom, and_assoc]

/-- The form from an offset on is the form from any lower offset on. -/
theorem Memory.wfFrom_mono {m : Memory} {lo lo' : Nat} (hle : lo' ≤ lo) (h : Memory.wfFrom lo m = true) :
    Memory.wfFrom lo' m = true := by
  cases m with
  | nil => rfl
  | cons c rest =>
    obtain ⟨a, v⟩ := c
    rw [Memory.wfFrom_cons] at h ⊢
    exact ⟨hle.trans h.1, h.2⟩

/-- Below its first possible entry a canonical memory reads 0. -/
theorem Memory.read_below {m : Memory} {lo a : Nat} (h : Memory.wfFrom lo m = true) (ha : a < lo) : m.read a = 0 := by
  induction m generalizing lo with
  | nil => rfl
  | cons c rest ih =>
    obtain ⟨b, v⟩ := c
    rw [Memory.wfFrom_cons] at h
    have hne : b ≠ a := by omega
    simp only [Memory.read, if_neg hne]
    exact ih h.2.2.2 (by omega)

/-! ## One byte -/

theorem Memory.write_wfFrom {m : Memory} {lo a : Nat} (v : Byte) (h : Memory.wfFrom lo m = true) (hlo : lo ≤ a)
    (ha : bufferOffset a = true) : Memory.wfFrom lo (m.write a v) = true := by
  induction m generalizing lo with
  | nil =>
    simp only [Memory.write]
    split
    · rfl
    · rw [Memory.wfFrom_cons]
      exact ⟨hlo, ha, by assumption, rfl⟩
  | cons c rest ih =>
    obtain ⟨b, w⟩ := c
    have hc := Memory.wfFrom_cons.1 h
    simp only [Memory.write]
    split
    · split
      · exact h
      · rw [Memory.wfFrom_cons]
        refine ⟨hlo, ha, by assumption, ?_⟩
        rw [Memory.wfFrom_cons]
        exact ⟨by omega, hc.2⟩
    · split
      · subst b
        split
        · exact Memory.wfFrom_mono (by omega) hc.2.2.2
        · rw [Memory.wfFrom_cons]
          exact ⟨hlo, ha, by assumption, hc.2.2.2⟩
      · rw [Memory.wfFrom_cons]
        exact ⟨hc.1, hc.2.1, hc.2.2.1, ih hc.2.2.2 (by omega)⟩

/-- A byte written at a buffer offset keeps the canonical form. -/
theorem Memory.write_wf {m : Memory} {a : Nat} (v : Byte) (h : m.wf = true) (ha : bufferOffset a = true) :
    (m.write a v).wf = true :=
  Memory.write_wfFrom v h (Nat.zero_le a) ha

/-- Reading after a write: the byte written there, and every other byte as before. -/
theorem Memory.read_write_wfFrom {m : Memory} {lo : Nat} (h : Memory.wfFrom lo m = true) (a : Nat) (v : Byte) (x : Nat) :
    (m.write a v).read x = if x = a then v else m.read x := by
  induction m generalizing lo with
  | nil =>
    simp only [Memory.write]
    split
    · subst v; simp
    · by_cases hx : x = a
      · simp [Memory.read, hx]
      · simp [Memory.read, hx, Ne.symm hx]
  | cons c rest ih =>
    obtain ⟨b, w⟩ := c
    have hc := Memory.wfFrom_cons.1 h
    have below : ∀ y, y ≤ b → Memory.read rest y = 0 := fun y hy => Memory.read_below hc.2.2.2 (by omega)
    simp only [Memory.write]
    split
    · rename_i hab
      split
      · subst v
        by_cases hx : x = a
        · subst x
          simp [Memory.read, show ¬b = a by omega, below a (by omega)]
        · simp [hx]
      · by_cases hx : x = a
        · simp [Memory.read, hx]
        · simp [Memory.read, hx, Ne.symm hx]
    · split
      · subst b
        split
        · subst v
          by_cases hx : x = a
          · subst x; simp [below a le_rfl]
          · simp [Memory.read, hx, Ne.symm hx]
        · by_cases hx : x = a
          · simp [Memory.read, hx]
          · simp [Memory.read, hx, Ne.symm hx]
      · rename_i hne
        by_cases hx : x = b
        · subst x; simp [Memory.read, Ne.symm hne]
        · simp only [Memory.read, if_neg (Ne.symm hx)]
          exact ih hc.2.2.2

/-- Reading after a write to a memory in canonical form. -/
theorem Memory.read_write {m : Memory} (h : m.wf = true) (a : Nat) (v : Byte) (x : Nat) :
    (m.write a v).read x = if x = a then v else m.read x :=
  Memory.read_write_wfFrom h a v x

/-- In any memory, a write leaves every other byte as it reads. -/
theorem Memory.read_write_ne (m : Memory) {a x : Nat} (v : Byte) (hx : x ≠ a) : (m.write a v).read x = m.read x := by
  induction m with
  | nil =>
    simp only [Memory.write]
    split
    · rfl
    · simp [Memory.read, Ne.symm hx]
  | cons c rest ih =>
    obtain ⟨b, w⟩ := c
    simp only [Memory.write]
    split
    · split
      · rfl
      · simp [Memory.read, Ne.symm hx]
    · split
      · subst b
        split <;> simp [Memory.read, Ne.symm hx]
      · simp only [Memory.read, ih]

/-! ## Byte strings -/

theorem Memory.length_readBytes (m : Memory) (a n : Nat) : (m.readBytes a n).length = n := by
  induction n generalizing a with
  | zero => rfl
  | succ n ih => simp [Memory.readBytes, ih]

/-- Byte `i` of a byte string read. -/
theorem Memory.getD_readBytes (m : Memory) (a : Nat) {n i : Nat} (hi : i < n) :
    (m.readBytes a n).getD i 0 = m.read (a + i) := by
  induction n generalizing a i with
  | zero => omega
  | succ n ih =>
    cases i with
    | zero => simp [Memory.readBytes]
    | succ i =>
      have := ih (a + 1) (i := i) (by omega)
      simpa [Memory.readBytes, Nat.add_assoc, Nat.add_comm 1 i] using this

/-- A byte string read depends on the bytes of its range only. -/
theorem Memory.readBytes_congr {m m' : Memory} {a n : Nat} (h : ∀ i < n, m.read (a + i) = m'.read (a + i)) :
    m.readBytes a n = m'.readBytes a n := by
  induction n generalizing a with
  | zero => rfl
  | succ n ih =>
    have h0 : m.read a = m'.read a := h 0 (by omega)
    have hs : m.readBytes (a + 1) n = m'.readBytes (a + 1) n :=
      ih fun i hi => by simpa [Nat.add_assoc, Nat.add_comm 1 i] using h (i + 1) (by omega)
    simp [Memory.readBytes, h0, hs]

/-- Byte strings written at buffer offsets keep the canonical form. -/
theorem Memory.writeBytes_wf {m : Memory} {a : Nat} {bs : List Byte} (h : m.wf = true)
    (ha : ∀ i < bs.length, bufferOffset (a + i) = true) : (m.writeBytes a bs).wf = true := by
  induction bs generalizing m a with
  | nil => exact h
  | cons v vs ih =>
    refine ih (Memory.write_wf v h (ha 0 (by simp))) fun i hi => ?_
    have := ha (i + 1) (by simpa using hi)
    rwa [show a + 1 + i = a + (i + 1) by omega]

/-- In any memory, a byte string written leaves every byte outside its range as it reads. -/
theorem Memory.read_writeBytes_outside (m : Memory) {a x : Nat} (bs : List Byte)
    (hx : x < a ∨ a + bs.length ≤ x) : (m.writeBytes a bs).read x = m.read x := by
  induction bs generalizing m a with
  | nil => rfl
  | cons v vs ih =>
    simp only [List.length_cons] at hx
    simp only [Memory.writeBytes]
    rw [ih (m.write a v) (by omega), Memory.read_write_ne m v (by omega)]

/-- Reading after a byte string written to a memory in canonical form. -/
theorem Memory.read_writeBytes {m : Memory} {a : Nat} {bs : List Byte} (h : m.wf = true)
    (ha : ∀ i < bs.length, bufferOffset (a + i) = true) (x : Nat) :
    (m.writeBytes a bs).read x = if a ≤ x ∧ x < a + bs.length then bs.getD (x - a) 0 else m.read x := by
  induction bs generalizing m a with
  | nil => simp [Memory.writeBytes, show ¬(a ≤ x ∧ x < a) by omega]
  | cons v vs ih =>
    have hw : (m.write a v).wf = true := Memory.write_wf v h (ha 0 (by simp))
    have ha' : ∀ i < vs.length, bufferOffset (a + 1 + i) = true := fun i hi => by
      rw [show a + 1 + i = a + (i + 1) by omega]
      exact ha (i + 1) (by simpa using hi)
    have hr := ih hw ha'
    simp only [Memory.writeBytes, hr, Memory.read_write h, List.length_cons]
    rcases Nat.lt_trichotomy x a with hlt | rfl | hgt
    · simp [show ¬(a + 1 ≤ x) by omega, show ¬(a ≤ x) by omega, show x ≠ a by omega]
    · simp [show ¬(x + 1 ≤ x) by omega]
    · obtain ⟨d, rfl⟩ : ∃ d, x = a + 1 + d := ⟨x - a - 1, by omega⟩
      have h1 : a + 1 + d - a = d + 1 := by omega
      have h2 : a + 1 + d - (a + 1) = d := by omega
      by_cases hd : d < vs.length
      · simp [h1, h2, show a + 1 + d < a + 1 + vs.length by omega, show a + 1 + d < a + (vs.length + 1) by omega,
          show a ≤ a + 1 + d by omega]
      · simp [show ¬(a + 1 + d < a + 1 + vs.length) by omega, show ¬(a + 1 + d < a + (vs.length + 1)) by omega,
          show a + 1 + d ≠ a by omega]

/-! ## Zeroizing a range -/

theorem Memory.zeroRange_wfFrom {m : Memory} {lo : Nat} (a n : Nat) (h : Memory.wfFrom lo m = true) :
    Memory.wfFrom lo (m.zeroRange a n) = true := by
  induction m generalizing lo with
  | nil => rfl
  | cons c rest ih =>
    obtain ⟨b, w⟩ := c
    have hc := Memory.wfFrom_cons.1 h
    simp only [Memory.zeroRange, List.filter_cons]
    split
    · rw [Memory.wfFrom_cons]
      exact ⟨hc.1, hc.2.1, hc.2.2.1, ih hc.2.2.2⟩
    · exact Memory.wfFrom_mono (by omega) (ih hc.2.2.2)

/-- Zeroizing a range keeps the canonical form. -/
theorem Memory.zeroRange_wf {m : Memory} (a n : Nat) (h : m.wf = true) : (m.zeroRange a n).wf = true :=
  Memory.zeroRange_wfFrom a n h

/-- In any memory, a zeroized range reads 0 and every other byte as before. -/
theorem Memory.read_zeroRange (m : Memory) (a n x : Nat) :
    (m.zeroRange a n).read x = if a ≤ x ∧ x < a + n then 0 else m.read x := by
  induction m with
  | nil => simp [Memory.zeroRange]
  | cons c rest ih =>
    obtain ⟨b, w⟩ := c
    simp only [Memory.zeroRange, List.filter_cons] at ih ⊢
    by_cases hb : a ≤ b ∧ b < a + n
    · have hf : (decide (b < a) || decide (a + n ≤ b)) = false := by
        simp; omega
      simp only [hf, Bool.false_eq_true, if_false, ih, Memory.read]
      by_cases hbx : b = x
      · subst x; simp [hb]
      · simp [hbx]
    · have hf : (decide (b < a) || decide (a + n ≤ b)) = true := by
        simp; omega
      simp only [hf, if_true, Memory.read, ih]
      by_cases hbx : b = x
      · subst x; simp [hb]
      · simp [hbx]

/-- The reset memory is in canonical form, and every byte of it reads 0. -/
theorem reset_mem_wf : State.reset.mem.wf = true := rfl

theorem reset_mem_read (a : Nat) : State.reset.mem.read a = 0 := rfl

end Sys2Proof.Machine
end

