-- ==== Sys2Proof/Laws/Sponge.lean ====
section
/-!
SUPPORT. Lengths: of blocks, of squeezed bytes, and of the texts and tags the AEAD functions give.
-/

namespace Sys2Proof.Machine

/-! ## Formatter -/

theorem length_padBytes (M : List Byte) : (padBytes M).length = blockCount M.length * rb := by
  simp only [padBytes, blockCount, rb_eq, List.length_append, List.length_replicate, List.length_cons,
    List.length_nil]
  omega

theorem length_blocksOf (X : List Byte) (n : Nat) : (blocksOf X n).length = n := by
  induction n generalizing X with
  | zero => rfl
  | succ n ih => simp [blocksOf, ih]

/-- The number of blocks of a padded message (41_padding R152). -/
theorem length_pad (M : List Byte) : (pad M).length = blockCount M.length := length_blocksOf _ _

theorem length_withConstant (ds : Byte) (blks : List Block) : (withConstant ds blks).length = blks.length := by
  cases blks <;> simp [withConstant]

theorem length_phasePairs (M : List Byte) (ds : Byte) : (phasePairs M ds).length = blockCount M.length := by
  rw [phasePairs, length_withConstant, length_pad]

/-! ## Sponge -/

@[simp] theorem length_rate (S : Sponge) : (rate S).length = 2 := by simp [rate]

/-- A squeeze gives as many bytes as it is asked for (42_sponge R175). -/
theorem length_squeezeLoop (S : Sponge) (n fuel : Nat) (h : n ≤ 2 * (fuel + 1)) :
    (squeezeLoop S n fuel).1.length = n := by
  induction fuel generalizing S n with
  | zero => simp [squeezeLoop]; omega
  | succ fuel ih =>
    simp only [squeezeLoop]
    split
    · rename_i hn
      simp only [rb_eq] at hn
      simp [hn]
    · rename_i hn
      simp only [rb_eq] at hn
      simp only [List.length_append, length_rate, rb_eq, ih (permute S) (n - 2) (by omega)]
      omega

theorem length_squeeze (S : Sponge) (n : Nat) : (squeeze S n).1.length = n :=
  length_squeezeLoop S n n (by omega)

/-- A tag has 16 bytes (42_sponge R179). -/
@[simp] theorem length_tagOf (S : Sponge) : (tagOf S).length = 16 := length_squeeze _ _

theorem length_encryptBlocks (S : Sponge) (P : List Byte) (ps : List (Block × Byte)) (h : P.length ≤ 2 * ps.length) :
    (encryptBlocks S P ps).1.length = P.length := by
  induction ps generalizing S P with
  | nil =>
    simp only [List.length_nil] at h
    simp [encryptBlocks]; omega
  | cons p ps ih =>
    simp only [List.length_cons] at h
    simp only [encryptBlocks, List.length_append, xorStrings, List.length_zipWith, List.length_take, length_rate, rb_eq]
    rw [ih _ _ (by simp; omega)]
    simp; omega

theorem length_encryptText (S : Sponge) (P : List Byte) : (encryptText S P).1.length = P.length :=
  length_encryptBlocks _ _ _ (by rw [length_phasePairs]; simp [blockCount]; omega)

theorem length_decryptBlocks (S : Sponge) (C : List Byte) (c : Byte) (n : Nat) (h : C.length ≤ 2 * n) :
    (decryptBlocks S C c n).1.length = C.length := by
  induction n generalizing S C c with
  | zero => simp [decryptBlocks]; omega
  | succ n ih =>
    simp only [decryptBlocks, List.length_append, xorStrings, List.length_zipWith, List.length_take, length_rate, rb_eq]
    rw [ih _ _ _ (by simp; omega)]
    simp; omega

theorem length_decryptText (S : Sponge) (C : List Byte) : (decryptText S C).1.length = C.length :=
  length_decryptBlocks _ _ _ _ (by simp [blockCount]; omega)

/-! ## AEAD functions -/

/-- The ciphertext is as long as the plaintext, and the tag has 16 bytes (43_aead R202). -/
theorem length_wrapFn (K A P : List Byte) : (wrapFn K A P).1.length = P.length := length_encryptText _ _

theorem length_wrapFn_tag (K A P : List Byte) : (wrapFn K A P).2.length = 16 := length_tagOf _

/-- UNWRAP gives as many bytes as the ciphertext has, on both outcomes (43_aead R211). -/
theorem length_unwrapFn (K A C Tin : List Byte) : (unwrapFn K A C Tin).1.length = C.length := by
  simp only [unwrapFn]
  split
  · exact length_decryptText _ _
  · simp

theorem length_macFn (K M : List Byte) : (macFn K M).length = 16 := length_tagOf _

/-- UNWRAP answers Success or BadTag and no other code (43_aead R211). -/
theorem unwrapFn_code (K A C Tin : List Byte) :
    (unwrapFn K A C Tin).2 = .success ∨ (unwrapFn K A C Tin).2 = .badTag := by
  simp only [unwrapFn]
  split
  · exact .inl rfl
  · exact .inr rfl

end Sys2Proof.Machine
end

