-- ==== Sys2Proof/Laws/Operands.lean ====
section
/-!
SUPPORT. Operands and validation: what a validated command may rely on.
-/

namespace Sys2Proof.Machine

@[simp] theorem length_aadOperand (s : State) : (aadOperand s).length = s.aadLen.toNat := Memory.length_readBytes _ _ _

@[simp] theorem length_msgOperand (s : State) : (msgOperand s).length = s.msgLen.toNat := Memory.length_readBytes _ _ _

/-- The offsets of the two buffers (20_memory R63). -/
theorem bufferOffset_iff {a : Nat} :
    bufferOffset a = true ↔ (0x1000 ≤ a ∧ a < 0x1100) ∨ (0x2000 ≤ a ∧ a < 0x2400) := by
  simp [bufferOffset]

/-- Bytes below MSG_MAX lie in the MSG buffer. -/
theorem bufferOffset_msg {i : Nat} (h : i < 1024) : bufferOffset (msgBase + i) = true := by
  rw [bufferOffset_iff, msgBase_eq]; omega

/-- Bytes below AAD_MAX lie in the AAD buffer. -/
theorem bufferOffset_aad {i : Nat} (h : i < 256) : bufferOffset (aadBase + i) = true := by
  rw [bufferOffset_iff, aadBase_eq]; omega

/-- What validation from the key on has established when it lets a command through (43_aead R195). -/
theorem validateKeyed_ok {u : Bool} {tlen : Byte} {s : State} :
    validateKeyed u tlen s = .ok ↔
      s.keymask = 0xF ∧ (u = true → s.aadLen.toNat ≤ 256) ∧ s.msgLen.toNat ≤ 1024 ∧ tlen = 16 := by
  have h16 : tlen.toNat = 16 ↔ tlen = 16 := by
    constructor
    · intro h; exact BitVec.eq_of_toNat_eq (by simpa using h)
    · rintro rfl; rfl
  simp only [validateKeyed]
  by_cases hk : s.keymask = 0xF
  · by_cases ha : u = true ∧ 256 < s.aadLen.toNat
    · simp only [hk, ne_eq, not_true_eq_false, if_false, if_pos ha, reduceCtorEq, false_iff]
      intro hc; have := hc.2.1 ha.1; omega
    · have ha' : u = true → s.aadLen.toNat ≤ 256 := fun hu => by
        by_contra hc; exact ha ⟨hu, by omega⟩
      by_cases hm : 1024 < s.msgLen.toNat
      · simp only [hk, ne_eq, not_true_eq_false, if_false, if_neg ha, if_pos hm, reduceCtorEq, false_iff]
        intro hc; have := hc.2.2.1; omega
      · by_cases ht : tlen.toNat = 16
        · simp only [hk, ne_eq, not_true_eq_false, if_false, if_neg ha, if_neg hm, ht, true_iff]
          exact ⟨trivial, ha', by omega, h16.1 ht⟩
        · simp only [hk, ne_eq, not_true_eq_false, if_false, if_neg ha, if_neg hm, ht, not_false_eq_true, if_true,
            reduceCtorEq, false_iff]
          exact fun hc => ht (h16.2 hc.2.2.2)
  · simp only [hk, ne_eq, not_false_eq_true, if_true, reduceCtorEq, false_iff]
    exact fun hc => hc.1

/-- A string of MSG_LEN bytes written back to the MSG buffer keeps the canonical form. -/
theorem writeMsg_wf {s : State} {bs : List Byte} (h : s.mem.wf = true) (hlen : bs.length ≤ 1024) :
    (s.writeMsg bs).mem.wf = true :=
  Memory.writeBytes_wf h fun _ hi => bufferOffset_msg (by omega)

end Sys2Proof.Machine
end

