-- ==== Sys2Proof/Laws/Commands.lean ====
section
/-!
SUPPORT. What a command can do, said once: the inversion lemma of `exec`, and the spec lemmas of the lifecycle
operations it goes through.
-/

namespace Sys2Proof.Machine

/-- The completion record (43_aead R196, R197). -/
theorem complete_completed (c : ResultCode) (s : State) : Completed c (complete c s) :=
  ⟨rfl, rfl, rfl, rfl, rfl, rfl, rfl, rfl, rfl, rfl, rfl, rfl, rfl, rfl, rfl⟩

/-- The completion record touches no output and no surroundings. -/
theorem complete_noOutput (c : ResultCode) (s : State) : NoOutput s (complete c s) :=
  ⟨fun _ => rfl, rfl, ⟨rfl, rfl⟩, ⟨rfl, rfl, rfl, rfl⟩⟩

/-- What a command writes before its completion record, and the record's code. -/
inductive Wrote (s : State) : Instr → ResultCode → State → Prop where
  /-- Turned away, or reserved: nothing. -/
  | nothing (i : Instr) (code : ResultCode) (h : code = .fail ∨ code = .badHashBitLen) : Wrote s i code s
  | wrap (tlen : Byte) (h : validateKeyed true tlen s = .ok) :
      Wrote s (.wrap tlen) .success
        ((s.writeMsg (wrapFn (keyOperand s) (aadOperand s) (msgOperand s)).1).writeTag
          (wrapFn (keyOperand s) (aadOperand s) (msgOperand s)).2)
  | unwrap (tlen : Byte) (h : validateKeyed true tlen s = .ok) :
      Wrote s (.unwrap tlen) (unwrapFn (keyOperand s) (aadOperand s) (msgOperand s) (tagOperand s)).2
        (s.writeMsg (unwrapFn (keyOperand s) (aadOperand s) (msgOperand s) (tagOperand s)).1)
  | mac (tlen : Byte) (h : validateKeyed false tlen s = .ok) :
      Wrote s (.mac tlen) .success (s.writeTag (macFn (keyOperand s) (msgOperand s)))
  | clear (tlen : Byte) : Wrote s (.clear tlen) .success (clearEffects s)

theorem afterValidation_wrote {i : Instr} {v : Validation} {s u onOk : State} {code : ResultCode}
    (hok : v = .ok → onOk = complete code u ∧ Wrote s i code u) :
    ∃ c w, afterValidation v s onOk = complete c w ∧ Wrote s i c w := by
  cases v with
  | ok => exact ⟨code, u, (hok rfl).1, (hok rfl).2⟩
  | fail => exact ⟨.fail, s, rfl, .nothing i .fail (.inl rfl)⟩
  | badHashBitLen => exact ⟨.badHashBitLen, s, rfl, .nothing i .badHashBitLen (.inr rfl)⟩

/-- Every command answers a next state: NOP the state itself, and every other command the completion record over what
it wrote. -/
theorem exec_spec (i : Instr) (s : State) :
    (∃ tlen, i = .nop tlen ∧ exec i s = .next s) ∨
      (∃ code u, exec i s = .next (complete code u) ∧ Wrote s i code u) := by
  cases i with
  | nop tlen => exact .inl ⟨tlen, rfl, rfl⟩
  | wrap tlen =>
    obtain ⟨c, w, h, hw⟩ :=
      afterValidation_wrote (onOk := wrapDone s) (s := s) (v := validateKeyed true tlen s) fun hv => ⟨rfl, .wrap tlen hv⟩
    exact .inr ⟨c, w, congrArg Host.Outcome.next h, hw⟩
  | unwrap tlen =>
    obtain ⟨c, w, h, hw⟩ :=
      afterValidation_wrote (onOk := unwrapDone s) (s := s) (v := validateKeyed true tlen s) fun hv =>
        ⟨rfl, .unwrap tlen hv⟩
    exact .inr ⟨c, w, congrArg Host.Outcome.next h, hw⟩
  | mac tlen =>
    obtain ⟨c, w, h, hw⟩ :=
      afterValidation_wrote (onOk := macDone s) (s := s) (v := validateKeyed false tlen s) fun hv => ⟨rfl, .mac tlen hv⟩
    exact .inr ⟨c, w, congrArg Host.Outcome.next h, hw⟩
  | clear tlen => exact .inr ⟨.success, clearEffects s, rfl, .clear tlen⟩
  | reserved5 | reserved6 | reserved7 | reserved8 | reserved9 | reservedA | reservedB | reservedC | reservedD
  | reservedE | reservedF | reservedBits => exact .inr ⟨.fail, s, rfl, .nothing _ .fail (.inl rfl)⟩

/-- The inversion lemma: all that a command's next state can be. -/
theorem exec_next_cases {i : Instr} {s t : State} (h : exec i s = .next t) :
    (∃ tlen, i = .nop tlen ∧ t = s) ∨ (∃ code u, t = complete code u ∧ Wrote s i code u) := by
  rcases exec_spec i s with ⟨tlen, hi, hs⟩ | ⟨code, u, hs, hw⟩
  · exact .inl ⟨tlen, hi, by rw [hs] at h; exact (Host.Outcome.next.inj h).symm⟩
  · exact .inr ⟨code, u, by rw [hs] at h; exact (Host.Outcome.next.inj h).symm, hw⟩

/-- No completion records the code Unknown (60_exceptions R252). -/
theorem Wrote.code_ne_unknown {s u : State} {i : Instr} {code : ResultCode} (h : Wrote s i code u) : code ≠ .unknown := by
  cases h with
  | nothing _ _ h => rcases h with rfl | rfl <;> decide
  | wrap | mac | clear => decide
  | unwrap tlen h =>
    rcases unwrapFn_code (keyOperand s) (aadOperand s) (msgOperand s) (tagOperand s) with hc | hc <;> rw [hc] <;> decide

/-- What is written keeps memory in canonical form. -/
theorem Wrote.mem_wf {s u : State} {i : Instr} {code : ResultCode} (h : Wrote s i code u) (hm : s.mem.wf = true) :
    u.mem.wf = true := by
  cases h with
  | nothing => exact hm
  | mac => exact hm
  | wrap tlen h =>
    exact writeMsg_wf hm (by rw [length_wrapFn, length_msgOperand]; exact (validateKeyed_ok.1 h).2.2.1)
  | unwrap tlen h =>
    exact writeMsg_wf hm (by rw [length_unwrapFn, length_msgOperand]; exact (validateKeyed_ok.1 h).2.2.1)
  | clear => exact Memory.zeroRange_wf _ _ (Memory.zeroRange_wf _ _ hm)

/-- What is written touches no surroundings. -/
theorem Wrote.surroundings {s u : State} {i : Instr} {code : ResultCode} (h : Wrote s i code u) :
    SameSurroundings s u := by
  cases h <;> exact ⟨rfl, rfl, rfl, rfl⟩

/-! ## The invariant -/

/-- The invariant says nothing of IRQ_EN, DONE_IP, the lengths, TAG, or the surroundings. -/
theorem Inv.transfer {s t : State} (h : Inv s) (hbusy : t.busy = s.busy) (hdone : t.done = s.done)
    (hmask : t.keymask = s.keymask) (hres : t.result = s.result) (hkey : t.key = s.key) (hmem : t.mem = s.mem)
    (hcmdq : t.cmdq = s.cmdq) (hfsm : t.fsm = s.fsm) (hhid : hiddenZero t) : Inv t :=
  { mem := by rw [hmem]; exact h.mem
    fsm := by rw [hfsm, hbusy]; exact h.fsm
    hidden := hhid
    cmdqIdle := by rw [hbusy, hcmdq]; exact h.cmdqIdle
    cmdqBusy := by rw [hbusy, hcmdq]; exact h.cmdqBusy
    doneBusy := by rw [hbusy, hdone]; exact h.doneBusy
    result := by rw [hres]; exact h.result
    key := by unfold unmarkedKeyZero; rw [hmask, hkey]; exact h.key }

/-- The completion record over a canonical memory meets the invariant. -/
theorem complete_inv {c : ResultCode} {u : State} (hm : u.mem.wf = true) (hc : c ≠ .unknown) : Inv (complete c u) :=
  { mem := hm
    fsm := rfl
    hidden := ⟨rfl, rfl, rfl, rfl, rfl, rfl, rfl⟩
    cmdqIdle := fun _ => rfl
    cmdqBusy := fun h => nomatch h
    doneBusy := fun h => nomatch h
    result := hc
    key := fun i _ => by fin_cases i <;> rfl }

end Sys2Proof.Machine
end

