-- ==== Sys2Proof/Laws/Decode.lean ====
section
/-!
SUPPORT. The command word's fields: packing and reading them are inverse.
-/

namespace Sys2Proof

/-- Bit by bit, the word of four fields. -/
theorem getLsbD_packWord (op rsv0 : BitVec 4) (tlen : Byte) (rsv1 : BitVec 16) (i : Nat) :
    (packWord op rsv0 tlen rsv1).getLsbD i =
      if i < 4 then op.getLsbD i
      else if i < 8 then rsv0.getLsbD (i - 4)
      else if i < 16 then tlen.getLsbD (i - 8)
      else rsv1.getLsbD (i - 16) := by
  have hop : 4 ≤ i → op.getLsbD i = false := fun h => BitVec.getLsbD_of_ge op i h
  have hr0 : 8 ≤ i → rsv0.getLsbD (i - 4) = false := fun h => BitVec.getLsbD_of_ge rsv0 _ (by omega)
  have htl : 16 ≤ i → tlen.getLsbD (i - 8) = false := fun h => BitVec.getLsbD_of_ge tlen _ (by omega)
  have hr1 : 32 ≤ i → rsv1.getLsbD (i - 16) = false := fun h => BitVec.getLsbD_of_ge rsv1 _ (by omega)
  simp only [packWord, BitVec.getLsbD_or, BitVec.getLsbD_shiftLeft, BitVec.getLsbD_setWidth]
  by_cases h1 : i < 4
  · simp [h1, show i < 8 by omega, show i < 16 by omega, show i < 32 by omega]
  · by_cases h2 : i < 8
    · simp [h1, h2, show i < 16 by omega, show i < 32 by omega, hop (by omega), show i - 4 < 32 by omega]
    · by_cases h3 : i < 16
      · simp [h1, h2, h3, show i < 32 by omega, hop (by omega), hr0 (by omega), show i - 8 < 32 by omega]
      · by_cases h4 : i < 32
        · simp [h1, h2, h3, h4, hop (by omega), hr0 (by omega), htl (by omega), show i - 16 < 32 by omega]
        · simp [h1, h2, h3, h4, hr1 (by omega)]

theorem opField_packWord (op rsv0 : BitVec 4) (tlen : Byte) (rsv1 : BitVec 16) :
    opField (packWord op rsv0 tlen rsv1) = op := by
  apply BitVec.eq_of_getLsbD_eq
  intro i hi
  rw [opField, BitVec.getLsbD_extractLsb', getLsbD_packWord]
  simp [hi]

theorem rsv0Field_packWord (op rsv0 : BitVec 4) (tlen : Byte) (rsv1 : BitVec 16) :
    rsv0Field (packWord op rsv0 tlen rsv1) = rsv0 := by
  apply BitVec.eq_of_getLsbD_eq
  intro i hi
  rw [rsv0Field, BitVec.getLsbD_extractLsb', getLsbD_packWord]
  simp [hi, show 4 + i < 8 by omega]

theorem tlenField_packWord (op rsv0 : BitVec 4) (tlen : Byte) (rsv1 : BitVec 16) :
    tlenField (packWord op rsv0 tlen rsv1) = tlen := by
  apply BitVec.eq_of_getLsbD_eq
  intro i hi
  rw [tlenField, BitVec.getLsbD_extractLsb', getLsbD_packWord]
  simp [hi, show ¬(8 + i < 4) by omega, show 8 + i < 16 by omega]

theorem rsv1Field_packWord (op rsv0 : BitVec 4) (tlen : Byte) (rsv1 : BitVec 16) :
    rsv1Field (packWord op rsv0 tlen rsv1) = rsv1 := by
  apply BitVec.eq_of_getLsbD_eq
  intro i hi
  rw [rsv1Field, BitVec.getLsbD_extractLsb', getLsbD_packWord]
  simp [hi, show ¬(16 + i < 4) by omega, show ¬(16 + i < 8) by omega]

/-- A word without reserved bits decodes by its OP. -/
theorem decodeWord_packWord (op : BitVec 4) (tlen : Byte) : decodeWord (packWord op 0 tlen 0) = decodeOp op tlen := by
  simp [decodeWord, hasReservedBits, rsv0Field_packWord, rsv1Field_packWord, opField_packWord, tlenField_packWord]

/-- A word with a reserved bit decodes to all four of its fields. -/
theorem decodeWord_packWord_reserved {op rsv0 : BitVec 4} {tlen : Byte} {rsv1 : BitVec 16}
    (h : rsv0 ≠ 0 ∨ rsv1 ≠ 0) : decodeWord (packWord op rsv0 tlen rsv1) = .reservedBits op rsv0 tlen rsv1 := by
  have hr : hasReservedBits (packWord op rsv0 tlen rsv1) = true := by
    simpa [hasReservedBits, rsv0Field_packWord, rsv1Field_packWord] using h
  simp only [decodeWord, hr, if_true, rsv0Field_packWord, rsv1Field_packWord, opField_packWord, tlenField_packWord]

end Sys2Proof
end

