-- ==== Sys2Proof/Laws/FastPermutation.lean ====
section
/-!
SUPPORT. A permutation on numbers that the kernel evaluates fast, proved equal to `permute`: nibble `k` of the state
contributes its four substituted bits to the output at places `k`, `44 + k`, `88 + k` and `132 + k` (40_permutation
R122, R123), so one table of sixteen spread nibbles serves every place. The tests compute with it; the model does not.
-/

namespace Sys2Proof.Machine

/-! ## One nibble through the substitution and the wiring -/

/-- Where the bits of a substituted nibble `v` at place `k` end up. -/
def spreadNibble (v : BitVec 4) (k : Nat) : Sponge :=
  let bit := fun b => if v.getLsbD b then BitVec.twoPow 176 (44 * b + k) else 0
  bit 0 ||| bit 1 ||| bit 2 ||| bit 3

theorem pBits_or (A B : Sponge) (j : Nat) (ps : List Nat) : pBits (A ||| B) j ps = pBits A j ps ||| pBits B j ps := by
  induction ps generalizing j with
  | nil => simp [pBits]
  | cons p ps ih =>
    simp only [pBits, BitVec.getLsbD_or, ih]
    cases A.getLsbD j <;> cases B.getLsbD j <;> simp <;> ac_rfl

theorem pLayer_or (A B : Sponge) : pLayer (A ||| B) = pLayer A ||| pLayer B := pBits_or A B _ _

theorem pBits_zero (j : Nat) (ps : List Nat) : pBits 0 j ps = 0 := by
  induction ps generalizing j with
  | nil => rfl
  | cons p ps ih => simpa [pBits] using ih (j + 1)

theorem pLayer_zero : pLayer 0 = 0 := pBits_zero _ _

/-- One bit through any wiring that has an entry for it. -/
theorem pBits_twoPow {j i : Nat} (hi : i < 176) (ps : List Nat) :
    pBits (BitVec.twoPow 176 i) j ps =
      if j ≤ i ∧ i < j + ps.length then BitVec.twoPow 176 (ps.getD (i - j) 0) else 0 := by
  induction ps generalizing j with
  | nil => rw [if_neg (by simp)]; rfl
  | cons p ps ih =>
    simp only [pBits, ih, BitVec.getLsbD_twoPow, List.length_cons]
    by_cases h : i = j
    · subst h
      simp [hi]
    · have hd : (decide (i < 176) && decide (i = j)) = false := by simp [h]
      rw [hd]
      by_cases hlt : j < i ∧ i < j + (ps.length + 1)
      · obtain ⟨d, rfl⟩ : ∃ d, i = j + 1 + d := ⟨i - (j + 1), by omega⟩
        have : j + 1 + d - j = d + 1 := by omega
        simp only [Bool.false_eq_true, if_false, this, List.getD_cons_succ]
        rw [if_pos (by omega), if_pos (by omega)]
        congr 2
        omega
      · simp only [Bool.false_eq_true, if_false]
        rw [if_neg (by omega), if_neg (by omega)]

theorem pLayer_twoPow {i : Nat} (hi : i < 176) : pLayer (BitVec.twoPow 176 i) = BitVec.twoPow 176 (pwire i) := by
  have hl : params.pwire.length = 176 := rfl
  rw [pLayer, pBits_twoPow hi, if_pos (by omega)]
  rfl

theorem pwire_nibble {k b : Nat} (hk : k < 44) (hb : b < 4) : pwire (4 * k + b) = 44 * b + k := by
  have h : ∀ k < 44, ∀ b < 4, pwire (4 * k + b) = 44 * b + k := by decide +kernel
  exact h k hk b hb

/-- A nibble at place `k` as its four bits. -/
theorem nibble_bits (v : BitVec 4) (k : Nat) (hk : k < 44) :
    v.setWidth 176 <<< (4 * k) =
      (((if v.getLsbD 0 then BitVec.twoPow 176 (4 * k + 0) else 0) ||| (if v.getLsbD 1 then BitVec.twoPow 176 (4 * k + 1) else 0))
        ||| (if v.getLsbD 2 then BitVec.twoPow 176 (4 * k + 2) else 0))
        ||| (if v.getLsbD 3 then BitVec.twoPow 176 (4 * k + 3) else 0) := by
  revert v
  interval_cases k <;> decide +kernel

/-- The wiring of one substituted nibble. -/
theorem pLayer_nibble (v : BitVec 4) (k : Nat) (hk : k < 44) : pLayer (v.setWidth 176 <<< (4 * k)) = spreadNibble v k := by
  have bit : ∀ b < 4, pLayer (if v.getLsbD b then BitVec.twoPow 176 (4 * k + b) else 0) =
      if v.getLsbD b then BitVec.twoPow 176 (44 * b + k) else 0 := by
    intro b hb
    split
    · rw [pLayer_twoPow (by omega), pwire_nibble hk hb]
    · exact pLayer_zero
  rw [nibble_bits v k hk, pLayer_or, pLayer_or, pLayer_or, bit 0 (by omega), bit 1 (by omega), bit 2 (by omega),
    bit 3 (by omega)]
  rfl

/-! ## The same on numbers -/

/-- Sixteen entries of 176 bits: entry `x` is the spread of `SBOX[x]` at place 0. -/
def spreadTable : Nat :=
  (List.range 16).foldr (fun x t => (spreadNibble (sbox (BitVec.ofNat 4 x)) 0).toNat + 2 ^ 176 * t) 0

/-- Entry `x` of the table, moved to place `k`. -/
def fastNibble (T x k : Nat) : Nat := Nat.shiftLeft (Nat.mod (Nat.shiftRight T (Nat.mul 176 x)) (2 ^ 176)) k

/-- The lowest `k` nibbles of a state, substituted and wired, by the table `T`. -/
def fastLanes (T s : Nat) : Nat → Nat
  | 0 => 0
  | k + 1 => Nat.lor (fastLanes T s k) (fastNibble T (Nat.mod (Nat.shiftRight s (Nat.mul 4 k)) 16) k)

/-- The next round constant: the counter shifts up in the lowest seven bits, its reversal down in the highest. -/
def fastNext (c : Nat) : Nat :=
  let fb := Nat.mod (Nat.xor (Nat.shiftRight c 6) (Nat.shiftRight c 5)) 2
  Nat.add (Nat.add (Nat.mod (Nat.mul 2 c) 128) fb)
    (Nat.shiftLeft (Nat.add (Nat.shiftRight c 170) (Nat.mul 64 fb)) 169)

/-- `k` rounds from the round constant `c`. -/
def fastRounds (T s c : Nat) : Nat → Nat
  | 0 => s
  | k + 1 => fastRounds T (fastLanes T (Nat.xor s c) 44) (fastNext c) k

/-- The counter and its reversal in their places (40_permutation R125). -/
def roundConstant (lc : BitVec 7) : Sponge := lc.setWidth 176 ^^^ retnuoCl lc

theorem fastNibble_eq (x : BitVec 4) {k : Nat} (hk : k < 44) :
    fastNibble spreadTable x.toNat k = (spreadNibble (sbox x) k).toNat := by
  have h : ∀ k < 44, ∀ x : BitVec 4, fastNibble spreadTable x.toNat k = (spreadNibble (sbox x) k).toNat := by
    decide +kernel
  exact h k hk x

theorem fastLanes_eq (S : Sponge) {k : Nat} (hk : k ≤ 44) :
    fastLanes spreadTable S.toNat k = (pLayer (sBoxLanes S k)).toNat := by
  induction k with
  | zero => rw [show sBoxLanes S 0 = 0 from rfl, pLayer_zero]; rfl
  | succ k ih =>
    have hx : Nat.mod (Nat.shiftRight S.toNat (Nat.mul 4 k)) 16 = (S.extractLsb' (4 * k) 4).toNat := by
      rw [BitVec.extractLsb'_toNat]; rfl
    rw [fastLanes, ih (by omega), hx, fastNibble_eq _ (by omega), ← pLayer_nibble _ k (by omega), sBoxLanes, pLayer_or]
    exact (BitVec.toNat_or _ _).symm

theorem fastNext_eq (lc : BitVec 7) : fastNext (roundConstant lc).toNat = (roundConstant (lfsrNext lc)).toNat := by
  revert lc
  decide +kernel

theorem fastRounds_eq (S : Sponge) (lc : BitVec 7) (k : Nat) :
    fastRounds spreadTable S.toNat (roundConstant lc).toNat k = (rounds S lc k).1.toNat := by
  induction k generalizing S lc with
  | zero => rfl
  | succ k ih =>
    have hs : Nat.xor S.toNat (roundConstant lc).toNat = (addRC S lc).toNat := by
      rw [addRC, BitVec.xor_assoc]; exact (BitVec.toNat_xor _ _).symm
    rw [fastRounds, hs, fastLanes_eq _ le_rfl, fastNext_eq, ih]
    rfl

/-- `permute`, on numbers. -/
def fastPermute (T : Nat) (S : Sponge) : Sponge := BitVec.ofNat 176 (fastRounds T S.toNat (roundConstant 0x45).toNat 90)

theorem fastPermute_eq : permute = fastPermute spreadTable := by
  funext S
  apply BitVec.eq_of_toNat_eq
  rw [fastPermute, fastRounds_eq, BitVec.ofNat_toNat, BitVec.setWidth_eq]
  rfl

end Sys2Proof.Machine
end

