-- ==== Sys2Proof/Laws/FastAead.lean ====
section
/-!
SUPPORT. The AEAD functions over any permutation, proved equal to the model's for `permute`, so that a test can compute
them with the fast one. The model does not use them.
-/

namespace Sys2Proof.Machine

def absorbVia (perm : Sponge → Sponge) (S : Sponge) (M : List Byte) (ds : Byte) : Sponge :=
  (phasePairs M ds).foldl (fun S p => perm (inject S p.1 p.2)) S

def squeezeVia (perm : Sponge → Sponge) (S : Sponge) (n : Nat) : Nat → List Byte
  | 0 => (rate S).take n
  | fuel + 1 => if n ≤ rb then (rate S).take n else rate S ++ squeezeVia perm (perm S) (n - rb) fuel

def tagVia (perm : Sponge → Sponge) (S : Sponge) : List Byte :=
  squeezeVia perm (absorbVia perm S [] params.dsFinal) params.tlenFix params.tlenFix

def encryptVia (perm : Sponge → Sponge) (S : Sponge) (P : List Byte) : List (Block × Byte) → List Byte × Sponge
  | [] => ([], S)
  | p :: ps =>
    let r := encryptVia perm (perm (inject S p.1 p.2)) (P.drop rb) ps
    (xorStrings (P.take rb) (rate S) ++ r.1, r.2)

def decryptVia (perm : Sponge → Sponge) (S : Sponge) (C : List Byte) (c : Byte) : Nat → List Byte × Sponge
  | 0 => ([], S)
  | n + 1 =>
    let p := xorStrings (C.take rb) (rate S)
    let r := decryptVia perm (perm (inject S (recoveredBlock p (n == 0)) c)) (C.drop rb) 0 n
    (p ++ r.1, r.2)

def startVia (perm : Sponge → Sponge) (K A : List Byte) : Sponge :=
  absorbVia perm (absorbVia perm 0 K params.dsKey) A params.dsAad

def wrapVia (perm : Sponge → Sponge) (K A P : List Byte) : List Byte × List Byte :=
  let r := encryptVia perm (startVia perm K A) P (phasePairs P params.dsText)
  (r.1, tagVia perm r.2)

def unwrapVia (perm : Sponge → Sponge) (K A C Tin : List Byte) : List Byte × ResultCode :=
  let r := decryptVia perm (startVia perm K A) C params.dsText (blockCount C.length)
  if ctEqual (tagVia perm r.2) Tin then (r.1, .success) else (List.replicate C.length 0, .badTag)

def macVia (perm : Sponge → Sponge) (K M : List Byte) : List Byte :=
  tagVia perm (absorbVia perm (absorbVia perm 0 K params.dsKey) M params.dsMac)

theorem squeezeVia_permute (S : Sponge) (n fuel : Nat) : squeezeVia permute S n fuel = (squeezeLoop S n fuel).1 := by
  induction fuel generalizing S n with
  | zero => rfl
  | succ fuel ih => simp only [squeezeVia, squeezeLoop]; split <;> simp [ih]

theorem tagVia_permute (S : Sponge) : tagVia permute S = tagOf S := squeezeVia_permute _ _ _

theorem encryptVia_permute (S : Sponge) (P : List Byte) (ps : List (Block × Byte)) :
    encryptVia permute S P ps = encryptBlocks S P ps := by
  induction ps generalizing S P with
  | nil => rfl
  | cons p ps ih => simp only [encryptVia, encryptBlocks, ih, absorbPair]

theorem decryptVia_permute (S : Sponge) (C : List Byte) (c : Byte) (n : Nat) :
    decryptVia permute S C c n = decryptBlocks S C c n := by
  induction n generalizing S C c with
  | zero => rfl
  | succ n ih => simp only [decryptVia, decryptBlocks, ih, absorbPair]

theorem wrapFn_eq_fast (K A P : List Byte) : wrapFn K A P = wrapVia (fastPermute spreadTable) K A P := by
  rw [← fastPermute_eq, wrapVia, encryptVia_permute, tagVia_permute]
  rfl

theorem unwrapFn_eq_fast (K A C Tin : List Byte) :
    unwrapFn K A C Tin = unwrapVia (fastPermute spreadTable) K A C Tin := by
  rw [← fastPermute_eq, unwrapVia, decryptVia_permute, tagVia_permute]
  rfl

theorem macFn_eq_fast (K M : List Byte) : macFn K M = macVia (fastPermute spreadTable) K M := by
  rw [← fastPermute_eq, macVia, tagVia_permute]
  rfl

end Sys2Proof.Machine
end

