-- ==== Sys2Proof/Laws/PerInstr.lean ====
section
/-!
SUPPORT. One statement for each command: the decoder reads from its word the command itself, with every field.
-/

namespace Sys2Proof.Laws.RoundTrip

/-- Decoding the word of a well-formed command gives it back. -/
def Statement (i : Instr) : Prop := i.wf = true → decodeWord (encodeWord i) = i

theorem nop (tlen : Byte) : Statement (.nop tlen) := fun _ => decodeWord_packWord _ tlen

theorem wrap (tlen : Byte) : Statement (.wrap tlen) := fun _ => decodeWord_packWord _ tlen

theorem unwrap (tlen : Byte) : Statement (.unwrap tlen) := fun _ => decodeWord_packWord _ tlen

theorem mac (tlen : Byte) : Statement (.mac tlen) := fun _ => decodeWord_packWord _ tlen

theorem clear (tlen : Byte) : Statement (.clear tlen) := fun _ => decodeWord_packWord _ tlen

theorem reserved5 (tlen : Byte) : Statement (.reserved5 tlen) := fun _ => decodeWord_packWord _ tlen

theorem reserved6 (tlen : Byte) : Statement (.reserved6 tlen) := fun _ => decodeWord_packWord _ tlen

theorem reserved7 (tlen : Byte) : Statement (.reserved7 tlen) := fun _ => decodeWord_packWord _ tlen

theorem reserved8 (tlen : Byte) : Statement (.reserved8 tlen) := fun _ => decodeWord_packWord _ tlen

theorem reserved9 (tlen : Byte) : Statement (.reserved9 tlen) := fun _ => decodeWord_packWord _ tlen

theorem reservedA (tlen : Byte) : Statement (.reservedA tlen) := fun _ => decodeWord_packWord _ tlen

theorem reservedB (tlen : Byte) : Statement (.reservedB tlen) := fun _ => decodeWord_packWord _ tlen

theorem reservedC (tlen : Byte) : Statement (.reservedC tlen) := fun _ => decodeWord_packWord _ tlen

theorem reservedD (tlen : Byte) : Statement (.reservedD tlen) := fun _ => decodeWord_packWord _ tlen

theorem reservedE (tlen : Byte) : Statement (.reservedE tlen) := fun _ => decodeWord_packWord _ tlen

theorem reservedF (tlen : Byte) : Statement (.reservedF tlen) := fun _ => decodeWord_packWord _ tlen

theorem reservedBits (op rsv0 : BitVec 4) (tlen : Byte) (rsv1 : BitVec 16) :
    Statement (.reservedBits op rsv0 tlen rsv1) := fun h =>
  decodeWord_packWord_reserved (by simpa [Instr.wf] using h)

end Sys2Proof.Laws.RoundTrip
end

