-- ==== Sys2Proof/Laws/Step.lean ====
section
/-!
SUPPORT. What the port and a step can do, said once: the inversion lemmas of `memWrite` and of `step`.
-/

namespace Sys2Proof.Machine

/-! ## Presentation of a command word -/

/-- A word that `present` calls a Nop decodes to one (30_encoding R96). -/
theorem decodeWord_of_present_nop {w : Word} (h : present w = .nop) : decodeWord w = .nop (tlenField w) := by
  simp only [present] at h
  split at h
  · rename_i hc
    simp [decodeWord, hasReservedBits, hc.1, hc.2.1, hc.2.2, decodeOp]
  · cases h

/-- Presenting a word to an idle core (43_aead R190). -/
theorem presentCommand_eq (w : Word) (s : State) :
    presentCommand w s = .next (if present w = .nop then s else accept w s) := by
  simp only [presentCommand]
  split
  · rename_i h
    rw [decodeWord_of_present_nop h, if_pos h]
    rfl
  · rename_i h
    rw [if_neg (by rw [h]; simp)]

/-! ## A write at the port -/

/-- What a write that gets OKAY leaves. -/
inductive PortWrote (s : State) : State → Prop where
  /-- A read-only register, or a Nop. -/
  | unchanged : PortWrote s s
  | accepted (w : Word) (hb : s.busy = false) (hw : present w ≠ .nop) : PortWrote s (accept w s)
  | irqEn (b : Bool) : PortWrote s { s with doneIe := b }
  | irqStat (v : Word) : PortWrote s (acknowledge v s)
  | aadLen (v : Word) (hb : s.busy = false) : PortWrote s { s with aadLen := v }
  | msgLen (v : Word) (hb : s.busy = false) : PortWrote s { s with msgLen := v }
  | key (i : Fin 4) (v : Word) (hb : s.busy = false) :
      PortWrote s { s with key := s.key.set i v, keymask := markKey s.keymask i }
  | tag (i : Fin 4) (v : Word) (hb : s.busy = false) : PortWrote s { s with tag := s.tag.set i v }
  | buffer (a : Nat) (bs : List Byte) (hb : s.busy = false)
      (ha : ∀ i < bs.length, bufferOffset (a + i) = true) : PortWrote s { s with mem := s.mem.writeBytes a bs }

/-- The registers that are refused while BUSY = 1 stand at refused offsets (20_memory R70). -/
theorem busyRefused_of_regAt {a : Nat} {r : Reg} (h : regAt a = some r) :
    busyRefused a = true ↔
      r = .cmd ∨ r = .aadLen ∨ r = .msgLen ∨ (∃ i, r = .key i) ∨ (∃ i, r = .tag i) := by
  simp only [regAt] at h
  split at h <;> cases h <;> simp [busyRefused]

/-- An accessible offset is busy-refused only while the core is idle. -/
theorem accessible_idle {s : State} {a size : Nat} (h : accessible s a size = true) (hr : busyRefused a = true) :
    s.busy = false := by
  simp only [accessible, hr, Bool.and_true, Bool.and_eq_true, Bool.not_eq_true'] at h
  exact h.2

theorem length_splitLe (v : Word) (size : Nat) : (splitLe v size).length = min size 4 := by
  simp [splitLe, wordBytes]

/-- A buffer access lies in a buffer with all its bytes. -/
theorem accessible_buffer {s : State} {a size i : Nat} (h : accessible s a size = true) (ha : 0x1000 ≤ a)
    (hi : i < size) : bufferOffset (a + i) = true := by
  simp only [accessible, mapped, inPart, aadBase_eq, msgBase_eq, Bool.and_eq_true, Bool.or_eq_true, decide_eq_true_eq] at h
  rw [bufferOffset_iff]
  have := h.1.1.2
  omega

/-- The inversion lemma of `memWrite`: a bus error, or a next state that `PortWrote` lists. -/
theorem memWrite_cases (addr : Offset) (size : Nat) (v : Word) (s : State) :
    memWrite addr size v s = .fault (.busError addr) ∨ ∃ t, memWrite addr size v s = .next t ∧ PortWrote s t := by
  simp only [memWrite]
  split
  · rename_i hacc
    split
    · split
      · rename_i r hr
        right
        have idle : (r = .cmd ∨ r = .aadLen ∨ r = .msgLen ∨ (∃ i, r = .key i) ∨ (∃ i, r = .tag i)) → s.busy = false :=
          fun h => accessible_idle hacc ((busyRefused_of_regAt hr).2 h)
        cases r with
        | id | param0 | param1 | bufparam | status | result => exact ⟨s, rfl, .unchanged⟩
        | irqEn => exact ⟨_, rfl, .irqEn _⟩
        | irqStat => exact ⟨_, rfl, .irqStat _⟩
        | aadLen => exact ⟨_, rfl, .aadLen _ (idle (by simp))⟩
        | msgLen => exact ⟨_, rfl, .msgLen _ (idle (by simp))⟩
        | key i => exact ⟨_, rfl, .key _ _ (idle (by simp))⟩
        | tag i => exact ⟨_, rfl, .tag _ _ (idle (by simp))⟩
        | cmd =>
          refine ⟨_, presentCommand_eq v s, ?_⟩
          split
          · exact .unchanged
          · rename_i hw; exact .accepted v (idle (by simp)) hw
      · exact .inl rfl
    · rename_i hge
      right
      refine ⟨_, rfl, ?_⟩
      refine .buffer _ _ (accessible_idle hacc (by simp [busyRefused]; omega)) fun i hi => ?_
      rw [length_splitLe] at hi
      exact accessible_buffer hacc (by omega) (by omega)
  · exact .inl rfl

/-! ## The step -/

/-- What a step leaves. -/
inductive Stepped (s : State) : State → Prop where
  /-- Nothing to do. -/
  | waits : Stepped s s
  /-- The core takes the accepted command, after the agenda may have given it the turn. -/
  | core (rest : List Event) (t : State) (hr : s.rst = false) (hb : s.busy = true)
      (h : exec (decodeWord s.cmdq) { s with agenda := rest } = .next t) : Stepped s t
  /-- The agenda gives an idle core the turn. -/
  | coreIdle (rest : List Event) (hb : s.busy = false) : Stepped s { s with agenda := rest }
  /-- A read, or a refused write: only the answer. -/
  | answered (rest : List Event) (r : BusReply) : Stepped s { s with agenda := rest, reply := some r }
  /-- A write that gets OKAY. -/
  | wrote (rest : List Event) (t : State) (r : BusReply) (h : PortWrote { s with agenda := rest } t) :
      Stepped s { t with reply := some r }
  /-- A change of the `rst` input, but for its release. -/
  | rst (rest : List Event) (level : Bool) : Stepped s { s with rst := level, agenda := rest }
  /-- The reset sequence. -/
  | reset (rest : List Event) : Stepped s { State.reset with agenda := rest }

theorem hostTurn_cases (tr : Transaction) (s : State) (rest : List Event) :
    ∃ t, hostTurn tr { s with agenda := rest } = .next t ∧ Stepped s t := by
  cases tr with
  | read addr size => exact ⟨_, rfl, .answered rest _⟩
  | write addr size v =>
    simp only [hostTurn]
    rcases memWrite_cases addr size v { s with agenda := rest } with h | ⟨t, h, hw⟩
    · rw [h]; exact ⟨_, rfl, .answered rest _⟩
    · rw [h]; exact ⟨_, rfl, .wrote rest t _ hw⟩

theorem coreTurn_cases {s : State} (hr : s.rst = false) (rest : List Event) :
    ∃ t, coreTurn { s with agenda := rest } = .next t ∧ Stepped s t := by
  simp only [coreTurn]
  split
  · rename_i hb
    rcases exec_spec (decodeWord s.cmdq) { s with agenda := rest } with ⟨_, _, h⟩ | ⟨code, u, h, _⟩
    · exact ⟨_, h, .core rest _ hr hb h⟩
    · exact ⟨_, h, .core rest _ hr hb h⟩
  · rename_i hb
    exact ⟨_, rfl, .coreIdle rest (by simpa using hb)⟩

/-- Every step answers a next state, which `Stepped` lists. -/
theorem step_spec (s : State) : ∃ t, step s = .next t ∧ Stepped s t := by
  simp only [step]
  split
  · simp only [resetTurn]
    split
    · rename_i rest _
      refine ⟨_, rfl, ?_⟩
      have := Stepped.rst (s := s) rest s.rst
      exact this
    · exact ⟨_, rfl, .reset _⟩
    · exact ⟨s, rfl, .waits⟩
  · rename_i hr
    have hr : s.rst = false := by simpa using hr
    simp only [runTurn]
    split
    · rename_i hag
      have hs : { s with agenda := [] } = s := by rw [← hag]
      have := coreTurn_cases hr []
      rwa [hs] at this
    · exact coreTurn_cases hr _
    · exact hostTurn_cases _ _ _
    · exact ⟨_, rfl, .rst _ _⟩

/-- While `rst` is released, the step is the transaction that the agenda lists first. -/
theorem step_bus {s : State} {t : Transaction} {rest : List Event} (hr : s.rst = false) (ha : s.agenda = .bus t :: rest) :
    step s = hostTurn t { s with agenda := rest } := by
  rw [step, if_neg (by simp [hr]), runTurn, ha]

/-- The inversion lemma of `step`. -/
theorem step_next_cases {s t : State} (h : step s = .next t) : Stepped s t := by
  obtain ⟨u, hu, hs⟩ := step_spec s
  rw [h] at hu
  cases hu
  exact hs

end Sys2Proof.Machine
end

