-- ==== Sys2Proof/Machine/HostProgram.lean ====
section
/-!
DEFINITION. The host program notation of 30_encoding R97 and its pseudo-instructions (R98), over `step`: one line is
one bus transaction, a line that gets the ERROR response stops the program, and POLL32 repeats its read. When the core
takes its turn between two lines is a schedule that the run is given (60_exceptions R258).
-/

namespace Sys2Proof.Machine

/-- One line of a host program (30_encoding R97). -/
inductive HostLine where
  /-- WR32, WR16, WR8: `size` is 4, 2 or 1. -/
  | wr (size : Nat) (off : Offset) (v : Word)
  /-- RD32, RD16, RD8. -/
  | rd (size : Nat) (off : Offset)
  /-- POLL32. -/
  | poll (off : Offset) (mask val : Word)
  deriving DecidableEq, Repr

/-- A program on its way. -/
structure HostRun where
  block : State
  lines : List HostLine
  /-- The values the RD lines have read, oldest first. -/
  reads : List Word
  /-- The offset of the line that got the ERROR response. -/
  stopped : Option Offset
  deriving DecidableEq, Repr

/-- The transaction of a line. -/
def HostLine.transaction : HostLine → Transaction
  | .wr size off v => .write off size v
  | .rd size off => .read off size
  | .poll off _ _ => .read off 4

/-- The offset of a line. -/
def HostLine.off : HostLine → Offset
  | .wr _ off _ => off
  | .rd _ off => off
  | .poll off _ _ => off

/-- The state after one event. -/
def afterEvent (e : Event) (s : State) : State :=
  match step { s with agenda := [e] } with
  | .next s' => s'
  | .fault _ => s
  | .refused _ => s

/-- What a run does with the answer to its first line. -/
def HostRun.answered (r : HostRun) (l : HostLine) (ls : List HostLine) (s : State) : HostRun :=
  match s.reply with
  | some { resp := .okay, rdata := d } =>
    match l with
    | .wr _ _ _ => { r with block := s, lines := ls }
    | .rd _ _ => { r with block := s, lines := ls, reads := r.reads ++ [d.getD 0] }
    | .poll _ mask val =>
      if d.getD 0 &&& mask = val then { r with block := s, lines := ls } else { r with block := s }
  | _ => { r with block := s, lines := [], stopped := some l.off }

/-- One line, the core taking its turn before it where `coreFirst` says so. While `rst` is asserted the platform holds
the host off (70_reset R281) and the line waits, to be tried again: what a line does then 30_encoding R97 does not say.
DESIGN CHOICE, log 15. -/
def HostRun.line (coreFirst : Bool) (r : HostRun) : HostRun :=
  if r.block.rst then r else
  let s := if coreFirst then afterEvent .core r.block else r.block
  match r.lines with
  | [] => { r with block := s }
  | l :: ls => r.answered l ls (afterEvent (.bus l.transaction) s)

/-- A program run under a schedule, one entry a line tried. -/
def HostRun.run (r : HostRun) : List Bool → HostRun
  | [] => r
  | c :: cs => (r.line c).run cs

/-- A program at its first line. -/
def HostRun.start (s : State) (lines : List HostLine) : HostRun :=
  { block := s, lines := lines, reads := [], stopped := none }

/-! ## Pseudo-instructions (30_encoding R98) -/

/-- CMD.NOP, CMD.WRAP, CMD.UNWRAP, CMD.MAC, CMD.CLEAR, from the canonical words of 30_encoding R91. -/
def cmdNop : List HostLine := [.wr 4 0x010 0x00000000]
def cmdWrap : List HostLine := [.wr 4 0x010 0x00001001]
def cmdUnwrap : List HostLine := [.wr 4 0x010 0x00001002]
def cmdMac : List HostLine := [.wr 4 0x010 0x00001003]
def cmdClear : List HostLine := [.wr 4 0x010 0x00000004]

/-- WR32 of the four words of a 16-byte string from an offset on. -/
def loadQuad (off : Nat) (bs : List Byte) : List HostLine :=
  let q := Quad.ofBytes bs
  [.wr 4 (BitVec.ofNat 14 off) q.w0, .wr 4 (BitVec.ofNat 14 (off + 4)) q.w1,
    .wr 4 (BitVec.ofNat 14 (off + 8)) q.w2, .wr 4 (BitVec.ofNat 14 (off + 12)) q.w3]

/-- LOADKEY and LOADTAG. -/
def loadKey (k : List Byte) : List HostLine := loadQuad 0x040 k
def loadTag (t : List Byte) : List HostLine := loadQuad 0x050 t

/-- WR8 of a byte string from an offset on. -/
def storeBytes (off : Nat) : List Byte → List HostLine
  | [] => []
  | b :: bs => .wr 1 (BitVec.ofNat 14 off) (b.setWidth 32) :: storeBytes (off + 1) bs

/-- LOADAAD and LOADMSG. -/
def loadAad (a : List Byte) : List HostLine :=
  storeBytes aadBase a ++ [.wr 4 0x024 (BitVec.ofNat 32 a.length)]
def loadMsg (m : List Byte) : List HostLine :=
  storeBytes msgBase m ++ [.wr 4 0x028 (BitVec.ofNat 32 m.length)]

/-- WAITDONE: BUSY = 0 and DONE = 1. -/
def waitDone : List HostLine := [.poll 0x014 0x00000003 0x00000002]

/-- The byte string that `n` RD lines of a size give, from the program's RD line `k` on (counted from 0): their values'
bytes in the port's order (20_memory R65), one line after the other. None while one of the lines has yet to read. -/
def HostRun.bytesRead (r : HostRun) (size k n : Nat) : Option (List Byte) :=
  if k + n ≤ r.reads.length then some (((r.reads.drop k).take n).flatMap fun v => splitLe v size) else none

/-- The RD32 lines of READTAG. -/
def readTag : List HostLine := [.rd 4 0x050, .rd 4 0x054, .rd 4 0x058, .rd 4 0x05C]

/-- The `t` of a READTAG whose first line is the program's RD line `k`: four words, bytes little-endian. -/
def HostRun.tagRead (r : HostRun) (k : Nat) : Option (List Byte) := r.bytesRead 4 k 4

/-- The RD8 lines of READMSG. -/
def readMsg (len : Nat) : List HostLine :=
  (List.range len).map fun i => .rd 1 (BitVec.ofNat 14 (msgBase + i))

/-- The `m` of a `READMSG len` whose first line is the program's RD line `k`: one byte a line. -/
def HostRun.msgRead (r : HostRun) (k len : Nat) : Option (List Byte) := r.bytesRead 1 k len

end Sys2Proof.Machine
end

