-- ==== Sys2Proof/Tests/Slice0.lean ====
section
/-!
SUPPORT. The model's own tests, and a witness for each obligation with hypotheses. Expected values come from the
vectors of 95_test_vectors (its identifier stands in the comment) or from the rule named.
-/

namespace Sys2Proof.Tests

open Sys2Proof.Machine

/-! ## States and helpers -/

/-- The key `K` of 95_test_vectors. -/
def sampleKey : List Byte :=
  [0x73, 0x75, 0x70, 0x65, 0x72, 0x20, 0x73, 0x65, 0x63, 0x72, 0x65, 0x74, 0x20, 0x6B, 0x65, 0x79]

/-- An idle core with the key `K` loaded, one AAD byte 0x41 and one message byte 0x41. -/
def loaded : State :=
  { State.reset with
    key := { w0 := 0x65707573, w1 := 0x65732072, w2 := 0x74657263, w3 := 0x79656B20 }
    keymask := 0xF, aadLen := 1, msgLen := 1, mem := [(0x1000, 0x41), (0x2000, 0x41)], doneIe := true }

/-- The tag of V-A15. -/
def tagA15 : List Byte :=
  [0x32, 0x34, 0xEA, 0x4F, 0xA0, 0x97, 0x42, 0x18, 0x9E, 0x88, 0x3C, 0x77, 0x1B, 0x55, 0xCB, 0x08]

/-- A core with a command accepted. -/
def busyWith (w : Word) : State := accept w loaded

/-- The state that a command leaves. -/
def ran (i : Instr) (s : State) : Option State :=
  match exec i s with
  | .next t => some t
  | .fault _ => none
  | .refused _ => none

/-- The state that one transaction leaves. -/
def onBus (t : Transaction) (s : State) : Option State := stateAfter { s with agenda := [.bus t] } 1

/-- The port's answer to one transaction. -/
def answer (t : Transaction) (s : State) : Option BusReply := (onBus t s).bind fun u => u.reply

def okay (v : Word) : Option BusReply := some { resp := .okay, rdata := some v }
def errorRead : Option BusReply := some { resp := .error, rdata := some 0 }
def okayWrite : Option BusReply := some { resp := .okay, rdata := none }
def errorWrite : Option BusReply := some { resp := .error, rdata := none }

/-! ## Well-formedness -/

/-- A word of the row RESERVED_BITS has a reserved bit set (30_encoding R93). -/
theorem test_illformed_reservedBits_refused : (Instr.reservedBits 1 0 0x10 0).wf = false := by decide

theorem test_wellformed_reservedBits : (Instr.reservedBits 1 0 0x10 0x8000).wf = true := by decide

/-! ## Decoding: each word written as RSV1, TLEN, RSV0 and OP of 30_encoding R90 -/

/-- RSV1 ++ TLEN ++ RSV0 ++ OP. -/
abbrev bits (rsv1 : BitVec 16) (tlen : BitVec 8) (rsv0 op : BitVec 4) : Word := rsv1 ++ tlen ++ rsv0 ++ op

theorem test_decode_nop : decodeWord (bits 0b0000000000000000 0b11111111 0b0000 0b0000) = .nop 255 := by decide
theorem test_decode_wrap : decodeWord (bits 0b0000000000000000 0b00010000 0b0000 0b0001) = .wrap 16 := by decide
theorem test_decode_unwrap : decodeWord (bits 0b0000000000000000 0b00010000 0b0000 0b0010) = .unwrap 16 := by decide
theorem test_decode_mac : decodeWord (bits 0b0000000000000000 0b00100000 0b0000 0b0011) = .mac 32 := by decide
theorem test_decode_clear : decodeWord (bits 0b0000000000000000 0b00000000 0b0000 0b0100) = .clear 0 := by decide
theorem test_decode_5 : decodeWord (bits 0b0000000000000000 0b00010000 0b0000 0b0101) = .reserved5 16 := by decide
theorem test_decode_6 : decodeWord (bits 0b0000000000000000 0b00000001 0b0000 0b0110) = .reserved6 1 := by decide
theorem test_decode_7 : decodeWord (bits 0b0000000000000000 0b00000001 0b0000 0b0111) = .reserved7 1 := by decide
theorem test_decode_8 : decodeWord (bits 0b0000000000000000 0b00000001 0b0000 0b1000) = .reserved8 1 := by decide
theorem test_decode_9 : decodeWord (bits 0b0000000000000000 0b00000001 0b0000 0b1001) = .reserved9 1 := by decide
theorem test_decode_A : decodeWord (bits 0b0000000000000000 0b00000001 0b0000 0b1010) = .reservedA 1 := by decide
theorem test_decode_B : decodeWord (bits 0b0000000000000000 0b00000001 0b0000 0b1011) = .reservedB 1 := by decide
theorem test_decode_C : decodeWord (bits 0b0000000000000000 0b00000001 0b0000 0b1100) = .reservedC 1 := by decide
theorem test_decode_D : decodeWord (bits 0b0000000000000000 0b00000001 0b0000 0b1101) = .reservedD 1 := by decide
theorem test_decode_E : decodeWord (bits 0b0000000000000000 0b00000001 0b0000 0b1110) = .reservedE 1 := by decide
theorem test_decode_F : decodeWord (bits 0b0000000000000000 0b00000000 0b0000 0b1111) = .reservedF 0 := by decide
/-- V-E16: the reserved bit wins over OP = CLEAR. -/
theorem test_decode_reserved_bit_4 :
    decodeWord (bits 0b0000000000000000 0b00000000 0b0001 0b0100) = .reservedBits 4 1 0 0 := by decide
/-- V-E4: the reserved bit 31 of a word that else is WRAP. -/
theorem test_decode_reserved_bit_31 :
    decodeWord (bits 0b1000000000000000 0b00010000 0b0000 0b0001) = .reservedBits 1 0 16 0x8000 := by decide

/-- The bytes of a word stand least significant first (20_memory R65). -/
theorem test_decode_byte_order : decode [0x01, 0x10, 0x00, 0x00, 0xAA] = .ok (.wrap 16, [0xAA]) := by decide
theorem test_decode_truncated : decode [0x01, 0x10, 0x00] = .error .truncated := by decide
theorem test_table_word : decodeTableWord 8 0x13 = some (.reservedBits 3 1 0 0) := by decide

/-! ## Permutation -/

/-- V-S6. -/
theorem test_sBoxLayer :
    sBoxLayer (spongeOfBytes [0x10, 0x32, 0x54, 0x76, 0x98, 0xBA, 0xDC, 0xFE, 0, 0, 0, 0, 0, 0, 0, 0, 0, 0, 0, 0, 0, 0]) =
      spongeOfBytes [0xDE, 0x0B, 0x12, 0xF4, 0xA7, 0x58, 0xC9, 0x63, 0xEE, 0xEE, 0xEE, 0xEE, 0xEE, 0xEE, 0xEE, 0xEE, 0xEE,
        0xEE, 0xEE, 0xEE, 0xEE, 0xEE] := by
  decide +kernel

/-- V-P2, V-P4, V-P6. -/
theorem test_pwire : pwire 1 = 44 ∧ pwire 7 = 133 ∧ pwire 174 = 131 := by decide

/-- V-C1, V-C4. -/
theorem test_addRC :
    addRC 0 0x45 = 0x45 ||| (0xA2#176 <<< 168) ∧ addRC 0 0x7F = 0x7F ||| (0xFE#176 <<< 168) := by decide +kernel

/-- V-C5. -/
theorem test_counters : (List.range 10).map lcAt = [0x45, 0x0B, 0x16, 0x2C, 0x59, 0x33, 0x67, 0x4E, 0x1D, 0x3A] := by decide

/-- V-R1. -/
theorem test_round :
    round 0 0x45 =
      (spongeOfBytes [0x01, 0x00, 0x00, 0x00, 0x00, 0xE4, 0xFF, 0xFF, 0xFF, 0xFF, 0x7F, 0xFC, 0xFF, 0xFF, 0xFF, 0xFF,
        0xC3, 0xFF, 0xFF, 0xFF, 0xFF, 0xFF], 0x0B) := by
  decide +kernel

/-- V-R4. -/
theorem test_permute :
    permute 0 =
      spongeOfBytes [0x7C, 0xC4, 0xCE, 0x71, 0xE1, 0x21, 0x03, 0xA7, 0x60, 0x1E, 0x25, 0xFF, 0x89, 0x70, 0xFB, 0x10, 0xBF,
        0x32, 0x79, 0x3C, 0x23, 0x79] := by
  rw [fastPermute_eq]
  decide +kernel

/-! ## Formatter, sponge and AEAD functions -/

/-- V-D1, V-D4. -/
theorem test_pad : pad [] = [[0x80, 0x00]] ∧ pad [0x41, 0x42, 0x43] = [[0x41, 0x42], [0x43, 0x80]] := by decide

/-- V-G1. -/
theorem test_xorBlock : xorBlock 0 [0x41, 0x80] = 0x8041 := by decide +kernel

/-- V-A15. -/
theorem test_wrapFn : wrapFn sampleKey [0x41] [0x41] = ([0x69], tagA15) := by
  rw [wrapFn_eq_fast]
  decide +kernel

/-- V-A15 and 43_aead R215. -/
theorem test_unwrapFn : unwrapFn sampleKey [0x41] [0x69] tagA15 = ([0x41], .success) := by
  rw [unwrapFn_eq_fast]
  decide +kernel

/-- V-M2. -/
theorem test_macFn :
    macFn sampleKey [0x41] =
      [0xE8, 0x75, 0x79, 0x9B, 0x46, 0x6C, 0xA7, 0xCB, 0x28, 0x88, 0xCE, 0xB0, 0x18, 0x4C, 0xAC, 0xEE] := by
  rw [macFn_eq_fast]
  decide +kernel

/-! ## Commands -/

/-- V-E2: no state changes, no completion; only the port answers. -/
theorem test_nop_step :
    stateAfter (State.reset.withFetchWord 32 0x0000FF00) 1 = some { State.reset with reply := okayWrite } := by decide

theorem loaded_operands :
    keyOperand loaded = sampleKey ∧ aadOperand loaded = [0x41] ∧ msgOperand loaded = [0x41] := by decide

/-- V-A15: the ciphertext over the plaintext, the tag in TAG, the key zeroized. -/
theorem test_wrap_success :
    (wrapDone loaded).mem = [(0x1000, 0x41), (0x2000, 0x69)] ∧ (wrapDone loaded).tag = Quad.ofBytes tagA15 ∧
      (wrapDone loaded).key = Quad.zero ∧ validateKeyed true 16 loaded = .ok := by
  refine ⟨?_, ?_, rfl, by decide⟩
  · simp only [wrapDone, complete_mem, writeTag_mem, writeMsg_mem, loaded_operands, test_wrapFn]
    decide
  · simp only [wrapDone, complete_tag, writeTag_tag, loaded_operands, test_wrapFn]

/-- V-E8: the key check comes before the TLEN check. -/
theorem test_wrap_key_before_tlen :
    (ran (.wrap 8) { loaded with keymask := 0x7 }).map (fun t => (t.result, t.mem)) =
      some (.fail, [(0x1000, 0x41), (0x2000, 0x41)]) := by decide

/-- V-E9 for UNWRAP: AAD_LEN past AAD_MAX. -/
theorem test_unwrap_aad_too_long :
    (ran (.unwrap 16) { loaded with aadLen := 257 }).map (fun t => t.result) = some .fail := by decide

/-- V-A15 and 43_aead R211: the plaintext over the ciphertext, and TAG as supplied. -/
theorem test_unwrap_success :
    let s := { loaded with mem := [(0x1000, 0x41), (0x2000, 0x69)], tag := Quad.ofBytes tagA15 }
    (unwrapDone s).mem = [(0x1000, 0x41), (0x2000, 0x41)] ∧ (unwrapDone s).result = .success := by
  intro s
  have h : keyOperand s = sampleKey ∧ aadOperand s = [0x41] ∧ msgOperand s = [0x69] ∧ tagOperand s = tagA15 := by decide
  constructor
  · simp only [unwrapDone, complete_mem, writeMsg_mem, h, test_unwrapFn]
    decide
  · simp only [unwrapDone, complete_result, h, test_unwrapFn]

/-- V-E7. -/
theorem test_mac_tlen : (ran (.mac 32) loaded).map (fun t => (t.result, t.tag)) = some (.badHashBitLen, Quad.zero) := by
  decide

/-- V-M2, and V-E10: AAD_LEN is not checked. -/
theorem test_mac_ignores_aad_len :
    validateKeyed false 16 { loaded with aadLen := 257 } = .ok ∧
      (macDone loaded).tag = { w0 := 0x9B7975E8, w1 := 0xCBA76C46, w2 := 0xB0CE8828, w3 := 0xEEAC4C18 } := by
  refine ⟨by decide, ?_⟩
  simp only [macDone, complete_tag, writeTag_tag, loaded_operands, test_macFn]
  decide

/-- V-E15, 44_control R232: every buffer byte, both lengths, the key; IRQ_EN stays. -/
theorem test_clear :
    ran (.clear 0) loaded = some { State.reset with doneIe := true, done := true, doneIp := true } := by decide

/-- V-E15 as the step after acceptance. -/
theorem test_clear_step :
    (stateAfter (loaded.withFetchWord 32 0x00000004) 1).map (fun t => (t.mem, t.done, t.busy)) =
      some ([], true, false) := by decide

/-- V-E13, V-E14 and the opcodes between: Fail, without output. -/
theorem test_reserved_opcodes :
    ∀ i ∈ [Instr.reserved5 16, .reserved6 1, .reserved7 1, .reserved8 1, .reserved9 1, .reservedA 1, .reservedB 1,
        .reservedC 1, .reservedD 1, .reservedE 1, .reservedF 0],
      (ran i loaded).map (fun t => (t.result, t.mem, t.keymask)) =
        some (.fail, [(0x1000, 0x41), (0x2000, 0x41)], 0) := by decide

/-- V-E16: Fail, and the buffers are not cleared. -/
theorem test_reservedBits_clear :
    (ran (.reservedBits 4 1 0 0) loaded).map (fun t => (t.result, t.mem, t.aadLen)) =
      some (.fail, [(0x1000, 0x41), (0x2000, 0x41)], 1) := by decide

/-- V-E17: a fetched word with every bit set. -/
theorem test_reservedBits_step :
    (stateAfter (State.reset.withFetchWord 32 0xFFFFFFFF) 1).map (fun t => (t.result, t.done, t.busy, t.cmdq)) =
      some (.fail, true, false, 0) := by decide

/-! ## Bus -/

/-- V-B2. -/
theorem test_param0 : answer (.read 0x004 4) State.reset = okay 0x005A00B0 := by decide

/-- V-B6. -/
theorem test_key_write :
    (onBus (.write 0x040 4 0x65707573) State.reset).map (fun t => (statusWord t, answer (.read 0x040 4) t)) =
      some (0x00000100, okay 0) := by decide

/-- V-B7: the bytes of a word stand least significant first. -/
theorem test_buffer_bytes :
    (onBus (.write 0x2000 4 0x44332211) State.reset).map
        (fun t => (answer (.read 0x2000 1) t, answer (.read 0x2003 1) t, answer (.read 0x2002 2) t)) =
      some (okay 0x11, okay 0x44, okay 0x4433) := by decide

/-- V-B8, V-B9. -/
theorem test_buffer_ends :
    answer (.read 0x10FF 1) State.reset = okay 0 ∧ answer (.read 0x1100 1) State.reset = errorRead ∧
      answer (.read 0x23FC 4) State.reset = okay 0 ∧ answer (.read 0x2400 4) State.reset = errorRead := by decide

/-- V-B13: KEYMASK stays 0xF until completion. -/
theorem test_busy_status : answer (.read 0x014 4) (busyWith 0x00001001) = okay 0x00000F01 := by decide

/-- V-B14. -/
theorem test_busy_refusals :
    answer (.read 0x2000 1) (busyWith 0x00001001) = errorRead ∧
      onBus (.write 0x010 4 0) (busyWith 0x00001001) = some { busyWith 0x00001001 with reply := errorWrite } := by decide

/-- V-B16 and 60_exceptions R261: a write of 0 leaves DONE_IP, a write of 1 clears it. -/
theorem test_acknowledge :
    (onBus (.write 0x020 4 0) { loaded with doneIp := true }).map irq = some true ∧
      (onBus (.write 0x020 4 1) { loaded with doneIp := true }).map irq = some false := by decide

/-- 70_reset R281: reset cuts a command short, and the transaction that waited for the port is taken after it. -/
theorem test_reset_aborts :
    stateAfter { busyWith 0x00000004 with agenda := [.rst true, .bus (.read 0x000 4), .rst false] } 3 =
      some { State.reset with reply := okay 0x53504E54 } := by decide

/-- 30_encoding R97, R98: CLEAR and WAITDONE, the core taking its turn after the first poll. -/
theorem test_host_program :
    let r := (HostRun.start State.reset (cmdClear ++ waitDone)).run [false, false, true]
    r.lines = [] ∧ r.stopped = none ∧ r.block.done = true := by decide

/-- 30_encoding R98: after an RD line, READTAG gives P1's tag words as the bytes of V-A1, and READMSG "hell". -/
theorem test_readTag_readMsg :
    let s := { State.reset with
      tag := { w0 := 0xFEAECF8F, w1 := 0x6C1B0353, w2 := 0x25E3630A, w3 := 0xF8ECC28C }
      mem := [(0x2000, 0x68), (0x2001, 0x65), (0x2002, 0x6C), (0x2003, 0x6C)] }
    let r := (HostRun.start s ([.rd 4 0x018] ++ readTag ++ readMsg 4)).run (List.replicate 9 false)
    r.tagRead 1 = some [0x8F, 0xCF, 0xAE, 0xFE, 0x53, 0x03, 0x1B, 0x6C, 0x0A, 0x63, 0xE3, 0x25, 0x8C, 0xC2, 0xEC, 0xF8] ∧
      r.msgRead 5 4 = some [0x68, 0x65, 0x6C, 0x6C] ∧ r.msgRead 5 5 = none := by decide +kernel

/-- P5: a narrow read of a register stops the program. -/
theorem test_host_program_stops :
    ((HostRun.start State.reset [.rd 1 0x014, .rd 4 0x000]).run [false, false]).stopped = some 0x014 := by decide

/-- Log 15: a line tried while `rst` is asserted waits. -/
theorem test_host_program_waits_in_reset :
    let r := HostRun.start { State.reset with rst := true } [.rd 4 0x000]
    r.run [false, true] = r := by decide

/-- 40_permutation R131: RIDX holds ROUNDS when a permutation is done. -/
theorem test_ridx_reaches_rounds :
    (roundCycle { busyWith 0x00001001 with fsm := .key, lc := 0x3F, ridx := 89 }).ridx = 90 := rfl

/-- The datapath completes a rejected word in the state of the completion step. -/
theorem test_datapath_rejected :
    cycles (busyWith 0x00000010) (latency (busyWith 0x00000010)) = completeStep 0x00000010 (busyWith 0x00000010) := by
  decide

/-! ## Witnesses: a concrete input that meets the hypotheses of each obligation that has some -/

/-- The loaded state meets the invariant, and so does a core that has accepted a command. -/
theorem inv_loaded : Inv loaded where
  mem := by decide
  fsm := rfl
  hidden := ⟨rfl, rfl, rfl, rfl, rfl, rfl, rfl⟩
  cmdqIdle := fun _ => rfl
  cmdqBusy := fun h => nomatch h
  doneBusy := fun h => nomatch h
  result := by decide
  key := by unfold unmarkedKeyZero; decide

theorem inv_busyWith {w : Word} (hw : present w ≠ .nop) : Inv (busyWith w) where
  mem := inv_loaded.mem
  fsm := rfl
  hidden := ⟨rfl, rfl, rfl, rfl, rfl, rfl, rfl⟩
  cmdqIdle := fun h => nomatch h
  cmdqBusy := fun _ => hw
  doneBusy := fun _ => rfl
  result := inv_loaded.result
  key := inv_loaded.key

/-- The word WRAP, not a Nop; and the word NOP, one. -/
theorem present_words : present 0x00001001 = .cmd 1 16 ∧ present 0x0000FF00 = .nop := by decide

theorem witness_DecodeEncodeRoundTrip :
    (Instr.reservedBits 1 0 16 0x8000).wf = true ∧
      decode (encode (.reservedBits 1 0 16 0x8000) ++ [0xAA]) = .ok (.reservedBits 1 0 16 0x8000, [0xAA]) := by decide

theorem witness_NopIsExactlyZeroOpWithoutReservedBits :
    present 0x0000FF00 = .nop ∧ decodeWord 0x0000FF00 = .nop 0xFF ∧ present 0x00001001 ≠ .nop := by decide

/-- The highest nibble. -/
theorem witness_SBoxLayerSubstitutesEachNibble :
    43 < 44 ∧ (sBoxLayer (0x9#176 <<< 172)).extractLsb' 172 4 = 0xA := by decide +kernel

/-- V-P4 and V-P7. -/
theorem witness_PLayerMovesEachBit :
    7 < 176 ∧ (pLayer 0x80).getLsbD 133 = true ∧ 175 < 176 ∧ (pLayer (BitVec.twoPow 176 175)).getLsbD 175 = true := by
  decide +kernel

/-- The boundary bits 6, 7, 168, 169 and 175 of V-C4. -/
theorem witness_AddRcTouchesTwoFields :
    [6, 7, 168, 169, 175].map (addRC 0 0x7F).getLsbD = [true, false, false, true, true] := by decide +kernel

theorem witness_PhaseConstantOnFirstBlockOnly :
    (pad [0x41, 0x42])[0]? = some [0x41, 0x42] ∧ (phasePairs [0x41, 0x42] 3)[0]? = some ([0x41, 0x42], 3) ∧
      (pad [0x41, 0x42])[1]? = some [0x80, 0x00] ∧ (phasePairs [0x41, 0x42] 3)[1]? = some ([0x80, 0x00], 0) := by decide

theorem witness_PhasesSeparateRoles :
    phasePairs [0x41] params.dsAad ++ phasePairs [] params.dsText =
      [([0x41, 0x80], 2), ([0x80, 0x00], 3)] := by decide

/-- The last rate byte and the first capacity byte. -/
theorem witness_XorBlockLeavesCapacity :
    1 < 2 ∧ stateByte (xorBlock 0 [0x41, 0x80]) 1 = 0x80 ∧ 2 < 22 ∧ stateByte (xorBlock 0 [0x41, 0x80, 0xFF]) 2 = 0 := by
  decide +kernel

/-- V-G6 on the zero state: two bytes take no permutation. -/
theorem witness_SqueezeReadsSuccessiveRates : 1 < 2 ∧ squeeze 0x0201 2 = ([0x01, 0x02], 0x0201) := by decide +kernel

/-- V-A15. -/
theorem witness_CiphertextIsPlaintextXorKeystream :
    0 < ([0x41] : List Byte).length ∧ (wrapFn sampleKey [0x41] [0x41]).1.getD 0 0 = 0x69 := by
  rw [test_wrapFn]
  decide

/-- Equal tags, and tags that differ in the last bit of the last byte. -/
theorem witness_TagComparisonCoversAllBytes :
    tagA15.length = 16 ∧ ctEqual tagA15 tagA15 = true ∧ ctEqual tagA15 (tagA15.set 15 0x88) = false := by decide

/-- V-A8 on V-A15: one bit of the tag flipped. -/
theorem witness_ForgedTagIsRejected :
    (tagA15.set 0 0x33).length = 16 ∧ tagA15.set 0 0x33 ≠ (wrapFn sampleKey [0x41] [0x41]).2 := by
  rw [test_wrapFn]
  decide

theorem witness_ClearEqualsReset : Inv loaded ∧ exec (.clear 0) loaded ≠ .next loaded := by
  refine ⟨inv_loaded, fun h => ?_⟩
  have : ran (.clear 0) loaded = some loaded := by rw [ran, h]
  exact absurd this (by decide)

theorem loaded_valid (b : Bool) : OperandsValid b loaded := ⟨rfl, fun _ => by decide, by decide⟩

theorem witness_WrapCompletes : loaded.mem.wf = true ∧ OperandsValid true loaded := ⟨by decide, loaded_valid _⟩

/-- The bounds of both lengths are met. -/
theorem witness_WrapCompletes_bounds :
    OperandsValid true { loaded with aadLen := 256, msgLen := 1024 } ∧ loaded.mem.wf = true :=
  ⟨⟨rfl, fun _ => by decide, by decide⟩, by decide⟩

/-- The tag that WRAP made of these operands is the expected one (the Success clause). -/
theorem witness_UnwrapCompletes_success :
    let s := { loaded with mem := [(0x1000, 0x41), (0x2000, 0x69)], tag := Quad.ofBytes tagA15 }
    s.mem.wf = true ∧ OperandsValid true s ∧
      (unwrapFn (keyOperand s) (aadOperand s) (msgOperand s) (tagOperand s)).2 = .success := by
  refine ⟨by decide, ⟨rfl, fun _ => by decide, by decide⟩, ?_⟩
  exact congrArg Prod.snd test_unwrapFn

/-- Of two different supplied tags one is not the expected one (the BadTag clause). -/
theorem witness_UnwrapCompletes_badTag :
    ∃ q : Quad, loaded.mem.wf = true ∧ OperandsValid true { loaded with tag := q } ∧
      tagOf (decryptText (absorbPhase (initSponge (keyOperand loaded)) (aadOperand loaded) params.dsAad)
        (msgOperand loaded)).2 ≠ q.bytes := by
  generalize tagOf _ = T
  by_cases h : T = Quad.zero.bytes
  · exact ⟨{ Quad.zero with w0 := 1 }, by decide, ⟨rfl, fun _ => by decide, by decide⟩, by rw [h]; decide⟩
  · exact ⟨Quad.zero, by decide, ⟨rfl, fun _ => by decide, by decide⟩, h⟩

/-- V-E10 at the highest AAD_LEN. -/
theorem witness_MacCompletes : OperandsValid false { loaded with aadLen := 0xFFFFFFFF, msgLen := 1024 } :=
  ⟨rfl, fun h => (nomatch h), by decide⟩

/-- Each clause: three marked key words, AAD_LEN 257, MSG_LEN 1025, and valid operands with TLEN 15 (V-E8 to V-E11). -/
theorem witness_FailedChecksDecideTheCode :
    (0x7 : BitVec 4) ≠ 0xF ∧ 256 < (257 : Word).toNat ∧ 1024 < (1025 : Word).toNat ∧ OperandsValid true loaded ∧
      OperandsValid false { loaded with aadLen := 257 } ∧ (15 : Byte) ≠ 16 :=
  ⟨by decide, by decide, by decide, loaded_valid _, ⟨rfl, fun h => (nomatch h), by decide⟩, by decide⟩

theorem witness_ExecIsTheCompletionStep : present 0x00001001 ≠ .nop ∧ present 0x00000010 ≠ .nop := by decide

theorem witness_EveryCompletionZeroizes :
    (∀ n, Instr.reserved5 16 ≠ .nop n) ∧ exec (.reserved5 16) loaded = .next (complete .fail loaded) :=
  ⟨fun _ h => (nomatch h), rfl⟩

theorem witness_OnlyNamedCommandsWriteOutputs :
    exec (.mac 8) loaded = .next (complete .badHashBitLen loaded) ∧ (∀ n, Instr.mac 8 ≠ .clear n) ∧
      (∀ n, Instr.mac 8 ≠ .wrap n ∧ Instr.mac 8 ≠ .unwrap n) ∧
      (∀ n, Instr.reserved5 8 ≠ .wrap n ∧ Instr.reserved5 8 ≠ .mac n) ∧ (0x1000 : Nat) < msgBase :=
  ⟨rfl, fun _ h => (nomatch h), fun _ => ⟨fun h => (nomatch h), fun h => (nomatch h)⟩,
    fun _ => ⟨fun h => (nomatch h), fun h => (nomatch h)⟩, by decide⟩

/-- First clause: a step that sets bit 1 takes a write to KEY1. -/
theorem witness_KeyMustBeReloaded_step :
    let s := { State.reset with agenda := [.bus (.write 0x044 4 0x65732072)] }
    (stateAfter s 1).map (fun t => t.keymask) = some 0x2 ∧ TakesKeyWrite 1 s :=
  ⟨by decide, rfl, rfl, 0x044, 0x65732072, [], rfl, rfl⟩

/-- Second clause: a run of one step, a write to KEY0, after a CLEAR; no step of it takes a write to KEY1. -/
theorem witness_KeyMustBeReloaded_run :
    let s := { loaded with agenda := [.bus (.write 0x040 4 7)] }
    let t := complete .success (clearEffects s)
    (∀ n, Instr.clear 0 ≠ .nop n) ∧ exec (.clear 0) s = .next t ∧
      (stateAfter t 1).map (fun u => u.keymask) = some 0x1 ∧
      (∀ m < 1, ∀ x, stateAfter t m = some x → ¬TakesKeyWrite 1 x) := by
  refine ⟨fun _ h => (nomatch h), rfl, by decide, fun m hm x hx h => ?_⟩
  obtain rfl : m = 0 := by omega
  cases hx
  obtain ⟨_, _, addr, v, rest, ha, hag⟩ := h
  cases hag
  exact absurd ha (by decide)

/-- Two states with the same operands that differ in RESULT, IRQ_EN, DONE and the bytes past the lengths. -/
theorem witness_OutputsDependOnlyOnOperands :
    let s' := { loaded with result := .badTag, doneIe := false, done := true, mem := loaded.mem ++ [(0x2001, 7)] }
    loaded.mem.wf = true ∧ s'.mem.wf = true ∧ aadOperand loaded = aadOperand s' ∧ msgOperand loaded = msgOperand s' ∧
      exec (.wrap 8) loaded = .next (complete .badHashBitLen loaded) ∧
      exec (.wrap 8) s' = .next (complete .badHashBitLen s') :=
  ⟨by decide, by decide, by decide, by decide, rfl, rfl⟩

theorem witness_AcceptanceIsAbsorbedByCompletion : present 0x00000004 ≠ .nop := by decide

theorem witness_StepKeepsInv :
    Inv (busyWith 0x00000004) ∧
      (stateAfter (busyWith 0x00000004) 1).map (fun t => (t.busy, t.done, t.mem)) = some (false, true, []) :=
  ⟨inv_busyWith (by decide), by decide⟩

/-- First clause: `rst` asserted on a busy core. -/
theorem witness_ResetAbortsTheCommand_assert :
    let s := { busyWith 0x00000004 with agenda := [.rst true, .core] }
    s.rst = false ∧ s.agenda = .rst true :: [.core] := by decide

/-- Second clause: a waiting transaction, alone, with a further assertion and with a release of `rst` behind it. -/
theorem witness_ResetAbortsTheCommand :
    let waiting := [Event.bus (.read 0x014 4), .core]
    let s := { busyWith 0x00000004 with rst := true }
    let raised := { s with agenda := waiting ++ Event.rst true :: [Event.core] }
    let released := { s with agenda := waiting ++ Event.rst false :: [Event.core] }
    (∀ e ∈ waiting, ∀ level, e ≠ .rst level) ∧ s.rst = true ∧ raised.rst = true ∧ released.rst = true ∧
      ({ s with agenda := waiting } : State).agenda = waiting ∧ (stateAfter raised 2).isSome = true ∧
      stateAfter released 1 = some { State.reset with agenda := waiting ++ [Event.core] } :=
  ⟨by simp, rfl, rfl, rfl, rfl, by decide, by decide⟩

/-- Both clauses: the core's turn on the agenda, and an empty agenda. -/
theorem witness_CoreTurnRunsAcceptedCommand :
    let s := { busyWith 0x00001001 with agenda := [.core, .bus (.read 0x014 4)] }
    s.rst = false ∧ s.busy = true ∧ s.agenda = .core :: [.bus (.read 0x014 4)] ∧
      (busyWith 0x00001001).rst = false ∧ (busyWith 0x00001001).busy = true ∧ (busyWith 0x00001001).agenda = [] := by decide

/-- A Nop and a WRAP. -/
theorem witness_CmdWritePresentsACommand :
    (∃ s : State, s.rst = false ∧ s.busy = false ∧ s.agenda = [.bus (.write 0x010 4 0x0000FF00)] ∧
      present 0x0000FF00 = .nop) ∧
      ∃ s : State, s.rst = false ∧ s.busy = false ∧ s.agenda = [.bus (.write 0x010 4 0x00001001)] ∧
        present 0x00001001 ≠ .nop :=
  ⟨⟨{ loaded with agenda := [.bus (.write 0x010 4 0x0000FF00)] }, by decide⟩,
    ⟨{ loaded with agenda := [.bus (.write 0x010 4 0x00001001)] }, by decide⟩⟩

/-- The offsets at the ends of each refused range. -/
def refused : List Offset := [0x010, 0x024, 0x028, 0x040, 0x05C, 0x1000, 0x3FFC]

theorem witness_BusyRefusesInputsAndOutputs_clauses :
    ∀ addr ∈ refused,
      addr = 0x010 ∨ addr = 0x024 ∨ addr = 0x028 ∨ (0x040 ≤ addr.toNat ∧ addr.toNat < 0x060) ∨ 0x1000 ≤ addr.toNat := by
  simp [refused]

/-- V-B14. -/
theorem witness_BusyRefusesInputsAndOutputs :
    (busyWith 0x00001001).rst = false ∧ (busyWith 0x00001001).busy = true ∧
      refused.all (fun addr => answer (.read addr 4) (busyWith 0x00001001) == errorRead) = true ∧
      refused.all (fun addr => answer (.write addr 4 0) (busyWith 0x00001001) == errorWrite) = true := by
  decide +kernel

/-- Accesses of each clause, at the ends of its range. -/
def illegal : List (Offset × Nat) :=
  [(0x2000, 3), (0x2000, 0), (0x2001, 2), (0x2002, 4), (0x014, 1), (0xFFE, 2), (0x02C, 4), (0x03C, 4), (0x060, 4),
    (0x0FFC, 4), (0x1100, 1), (0x1FFF, 1), (0x2400, 1), (0x3FFF, 1)]

theorem witness_IllegalAccessesGetError_clauses :
    ∀ c ∈ illegal,
      (c.2 ≠ 1 ∧ c.2 ≠ 2 ∧ c.2 ≠ 4) ∨ c.1.toNat % c.2 ≠ 0 ∨ (c.1.toNat < 0x1000 ∧ c.2 ≠ 4) ∨
        (0x02C ≤ c.1.toNat ∧ c.1.toNat < 0x040) ∨ (0x060 ≤ c.1.toNat ∧ c.1.toNat < 0x1000) ∨
        (0x1100 ≤ c.1.toNat ∧ c.1.toNat < 0x2000) ∨ 0x2400 ≤ c.1.toNat := by
  simp [illegal]

/-- V-B4, V-B5, V-B8 to V-B11. -/
theorem witness_IllegalAccessesGetError :
    loaded.rst = false ∧ illegal.all (fun c => answer (.read c.1 c.2) loaded == errorRead) = true ∧
      illegal.all (fun c => answer (.write c.1 c.2 0) loaded == errorWrite) = true := by
  decide +kernel

/-- A read that is answered and one that is refused. -/
theorem witness_ReadsHaveNoSideEffect :
    loaded.rst = false ∧ { loaded with agenda := [.bus (.read 0x020 4)] }.agenda = [.bus (.read 0x020 4)] ∧
      memRead loaded 0x024 4 = .ok 1 ∧ memRead loaded 0x02C 4 = .error (.busError 0x02C) :=
  ⟨rfl, rfl, rfl, rfl⟩

/-- The ends of both buffers, at each size. -/
theorem witness_BufferWriteStoresBytes :
    ∀ c ∈ [((0x1000 : Offset), 4), (0x10FF, 1), (0x10FE, 2), (0x2000, 2), (0x23FC, 4), (0x23FF, 1)],
      loaded.mem.wf = true ∧ loaded.rst = false ∧ loaded.busy = false ∧ c.2 ∈ [1, 2, 4] ∧ c.1.toNat % c.2 = 0 ∧
      ((0x1000 ≤ c.1.toNat ∧ c.1.toNat < 0x1100) ∨ (0x2000 ≤ c.1.toNat ∧ c.1.toNat < 0x2400)) ∧
      answer (.write c.1 c.2 0xDDCCBBAA) loaded = okayWrite := by decide

theorem witness_BufferReadConcatenatesBytes :
    ∀ c ∈ [((0x1000 : Offset), 4), (0x10FF, 1), (0x2000, 2), (0x23FC, 4)],
      loaded.busy = false ∧ c.2 ∈ [1, 2, 4] ∧ c.1.toNat % c.2 = 0 ∧
      ((0x1000 ≤ c.1.toNat ∧ c.1.toNat < 0x1100) ∨ (0x2000 ≤ c.1.toNat ∧ c.1.toNat < 0x2400)) := by decide

/-- The hypotheses of `WritesOkay` about the step: `rst` released and the write first on the agenda. -/
theorem witness_WritesOkay :
    let s := { State.reset with agenda := [.bus (.write 0x024 4 9), .core] }
    s.rst = false ∧ s.agenda = .bus (.write 0x024 4 9) :: [.core] ∧
      stateAfter s 1 = some { State.reset with aadLen := 9, reply := okayWrite, agenda := [.core] } := by decide

theorem witness_KeyIsWriteOnly : State.reset.busy = false ∧ (0x04C : Offset).toNat = 0x040 + 4 * (3 : Fin 4).val := by decide

theorem witness_ReadWriteRegistersHoldTheirWord :
    State.reset.busy = false ∧ (0x050 : Offset).toNat = 0x050 + 4 * (0 : Fin 4).val ∧
      (0x05C : Offset).toNat = 0x050 + 4 * (3 : Fin 4).val ∧ (1 : Fin 4) ≠ 0 := by decide

/-- Each result code of 30_encoding R95, read at the port; and CMD of an idle core. -/
theorem witness_ReadOnlyRegistersIgnoreWrites :
    ([ResultCode.success, .fail, .badHashBitLen, .badTag, .unknown].map fun c =>
        answer (.read 0x018 4) { loaded with result := c }) = [okay 0, okay 1, okay 2, okay 3, okay 4] ∧
      loaded.busy = false ∧ answer (.read 0x010 4) loaded = okay 0 := by decide

/-- The pin high, and low for want of DONE_IE. -/
theorem witness_InterruptRegistersAndPin :
    loaded.rst = false ∧ irq { loaded with doneIp := true } = true ∧
      irq { loaded with doneIp := true, doneIe := false } = false := by decide

/-- Two busy cores with different keys, tags, lengths, buffers and commands. -/
theorem witness_BusyPortRevealsNoData :
    let s := busyWith 0x00001001
    let s' := { busyWith 0x00001002 with key := Quad.zero, tag := Quad.ofBytes tagA15, aadLen := 0, msgLen := 9, mem := [] }
    s.busy = true ∧ s'.busy = true ∧ s.done = s'.done ∧ s.keymask = s'.keymask ∧ s.result = s'.result ∧
      s.doneIe = s'.doneIe ∧ s.doneIp = s'.doneIp ∧ s ≠ s' := by decide

theorem witness_KeyAndStateAreNeverReadable :
    ∃ s' : State, s' ≠ loaded ∧
      s' = { loaded with key := s'.key, sponge := s'.sponge, lc := s'.lc, ridx := s'.ridx, fsm := s'.fsm, bidx := s'.bidx
                         sqcnt := s'.sqcnt, diff := s'.diff, tagc := s'.tagc, cmdq := s'.cmdq } :=
  ⟨{ loaded with key := Quad.zero, sponge := 5, cmdq := 4 }, by decide⟩

theorem witness_BothRaceOrdersAreRuns :
    Inv (busyWith 0x00000004) ∧ (busyWith 0x00000004).rst = false ∧ (busyWith 0x00000004).busy = true :=
  ⟨inv_busyWith (by decide), rfl, rfl⟩

/-- With transactions waiting, and with none. -/
theorem witness_AcceptedCommandCompletes :
    let s := { busyWith 0x00000004 with agenda := [.bus (.read 0x014 4), .core] }
    Inv s ∧ s.rst = false ∧ s.busy = true ∧ (∀ e ∈ s.agenda, ∀ level, e ≠ .rst level) :=
  ⟨(inv_busyWith (w := 0x00000004) (by decide)).transfer rfl rfl rfl rfl rfl rfl rfl rfl
    ⟨rfl, rfl, rfl, rfl, rfl, rfl, rfl⟩, rfl, rfl, by simp⟩

/-- Writing 0 removes an entry: the memory is the one without it. -/
theorem witness_CanonicalMemoryIsUnique :
    Memory.wf (Memory.write [(0x1000, 5)] 0x1000 0) = true ∧ Memory.wf [] = true ∧
      ∀ a, Memory.read (Memory.write [(0x1000, 5)] 0x1000 0) a = Memory.read [] a := ⟨by decide, by decide, fun _ => rfl⟩

theorem witness_DatapathRefinesCompletion :
    Inv (busyWith 0x00001001) ∧ (busyWith 0x00001001).busy = true ∧ 0 < latency (busyWith 0x00001001) :=
  ⟨inv_busyWith (by decide), rfl, by decide⟩

/-- Two cores that unwrap with different keys, tags and bytes of the same lengths. -/
theorem witness_DatapathRefinesCompletion_latency :
    let s := busyWith 0x00001002
    let s' := { s with key := Quad.zero, tag := Quad.ofBytes tagA15, mem := [(0x2000, 9)] }
    opField s.cmdq = opField s'.cmdq ∧ validate s.cmdq s = validate s'.cmdq s' ∧ s.aadLen = s'.aadLen ∧
      s.msgLen = s'.msgLen ∧ s ≠ s' := by decide

end Sys2Proof.Tests
end

section
/-!
The liveness of 00_scope R15. An accepted command waits through the host's transactions, which while BUSY = 1 touch only
the interrupt registers and the port's answer, and completes at the core's first turn.
-/

namespace Sys2Proof.Machine

/-! ## An accepted word is no Nop -/

theorem eq_zero_of_decodeOp_eq_nop {op : BitVec 4} {tlen t : Byte} (h : decodeOp op tlen = .nop t) : op = 0 := by
  unfold decodeOp at h
  split at h
  case h_1 h0 => exact BitVec.eq_of_toNat_eq h0
  all_goals cases h

/-- `present` and the decoder agree on what a Nop is (30_encoding R91, R96). -/
theorem present_eq_nop_iff {w : Word} : present w = .nop ↔ ∃ tlen, decodeWord w = .nop tlen := by
  refine ⟨fun h => ⟨_, decodeWord_of_present_nop h⟩, fun ⟨tlen, h⟩ => ?_⟩
  unfold decodeWord at h
  split at h
  · cases h
  next hres =>
    have hop := eq_zero_of_decodeOp_eq_nop h
    simp only [hasReservedBits, Bool.or_eq_true, bne_iff_ne, not_or, not_not] at hres
    exact if_pos ⟨hres.1, hres.2, hop⟩

/-- Every accepted command runs to its completion record (43_aead R196). -/
theorem exec_completes {w : Word} (hw : present w ≠ .nop) (s : State) :
    ∃ code u, exec (decodeWord w) s = .next (complete code u) ∧ Wrote s (decodeWord w) code u :=
  (exec_spec (decodeWord w) s).resolve_left fun ⟨tlen, h, _⟩ => hw (present_eq_nop_iff.2 ⟨tlen, h⟩)

/-! ## The port while BUSY = 1 -/

/-- A write that gets OKAY while BUSY = 1 reaches only IRQ_EN and IRQ_STAT (20_memory R70). -/
theorem PortWrote.eq_of_busy {s t : State} (h : PortWrote s t) (hb : s.busy = true) :
    t = { s with doneIe := t.doneIe, doneIp := t.doneIp } := by
  cases h with
  | unchanged | irqEn => rfl
  | irqStat => unfold acknowledge; split <;> rfl
  | accepted _ hidle | aadLen _ hidle | msgLen _ hidle | key _ _ hidle | tag _ _ hidle | buffer _ _ hidle =>
    exact absurd hb (by simp [hidle])

/-- A transaction while BUSY = 1 changes at most the interrupt registers and the port's answer. -/
theorem hostTurn_of_busy (tr : Transaction) {s : State} (hb : s.busy = true) :
    ∃ ie ip r, hostTurn tr s = .next { s with doneIe := ie, doneIp := ip, reply := some r } := by
  cases tr with
  | read addr size => exact ⟨s.doneIe, s.doneIp, _, rfl⟩
  | write addr size v =>
    rcases memWrite_cases addr size v s with h | ⟨t, h, hw⟩
    · exact ⟨s.doneIe, s.doneIp, writeReply .error, by simp only [hostTurn, h]⟩
    · refine ⟨t.doneIe, t.doneIp, writeReply .okay, ?_⟩
      rw [PortWrote.eq_of_busy hw hb] at h
      simp only [hostTurn, h]

/-! ## The core's turn -/

/-- An accepted command waits for the core's turn, with `rst` released. -/
structure Pending (s : State) : Prop where
  rst : s.rst = false
  busy : s.busy = true
  cmdq : present s.cmdq ≠ .nop

theorem Inv.pending {s : State} (h : Inv s) (hr : s.rst = false) (hb : s.busy = true) : Pending s :=
  ⟨hr, hb, h.cmdqBusy hb⟩

theorem step_of_agenda_nil {s : State} (hr : s.rst = false) (ha : s.agenda = []) : step s = coreTurn s := by
  rw [step, if_neg (by simp [hr]), runTurn, ha]

theorem step_of_agenda_core {s : State} {rest : List Event} (hr : s.rst = false) (ha : s.agenda = .core :: rest) :
    step s = coreTurn { s with agenda := rest } := by
  rw [step, if_neg (by simp [hr]), runTurn, ha]

theorem Pending.coreTurn_completes {s : State} (h : Pending s) (rest : List Event) :
    ∃ code u, coreTurn { s with agenda := rest } = .next (complete code u) := by
  obtain ⟨code, u, hexec, -⟩ := exec_completes h.cmdq { s with agenda := rest }
  exact ⟨code, u, by rw [coreTurn, if_pos h.busy, hexec]⟩

/-- A transaction leaves the command pending and moves the agenda on by one event. -/
theorem Pending.step_transaction {s : State} {tr : Transaction} {rest : List Event} (h : Pending s)
    (ha : s.agenda = .bus tr :: rest) : ∃ t, step s = .next t ∧ Pending t ∧ t.agenda = rest := by
  obtain ⟨ie, ip, r, ht⟩ := hostTurn_of_busy tr (s := { s with agenda := rest }) h.busy
  exact ⟨_, (step_bus h.rst ha).trans ht, ⟨h.rst, h.busy, h.cmdq⟩, rfl⟩

/-! ## Runs -/

theorem stateAfter_succ {s t : State} (h : step s = .next t) (n : Nat) : stateAfter s (n + 1) = stateAfter t n := by
  rw [stateAfter, h]

/-- By induction on the agenda: a transaction takes one event off and leaves the command pending, and the core's turn,
listed or at the agenda's end, completes it. -/
theorem Pending.completes {s : State} (h : Pending s) (hrst : ∀ e ∈ s.agenda, ∀ level, e ≠ .rst level) :
    ∃ k code u, k ≤ s.agenda.length + 1 ∧ stateAfter s k = some (complete code u) := by
  induction ha : s.agenda generalizing s with
  | nil =>
    obtain ⟨code, u, hcore⟩ := h.coreTurn_completes s.agenda
    exact ⟨1, code, u, by simp, stateAfter_succ ((step_of_agenda_nil h.rst ha).trans hcore) 0⟩
  | cons e rest ih =>
    cases e with
    | core =>
      obtain ⟨code, u, hcore⟩ := h.coreTurn_completes rest
      exact ⟨1, code, u, by simp, stateAfter_succ ((step_of_agenda_core h.rst ha).trans hcore) 0⟩
    | rst level => exact absurd rfl (hrst (.rst level) (by simp [ha]) level)
    | bus tr =>
      obtain ⟨t, hstep, ht, hrest⟩ := h.step_transaction ha
      obtain ⟨k, code, u, hk, hrun⟩ := ih ht (fun e he => hrst e (by simp [ha, ← hrest, he])) hrest
      exact ⟨k + 1, code, u, by simpa using hk, (stateAfter_succ hstep k).trans hrun⟩

/-- Settles O58: an accepted command is pending, and what it completes to has BUSY 0 and DONE 1. -/
theorem acceptedCommandCompletes : Obligations.AcceptedCommandCompletes := by
  intro s hinv hr hb hrst
  obtain ⟨k, code, u, hk, hrun⟩ := (hinv.pending hr hb).completes hrst
  exact ⟨k, complete code u, hk, hrun, complete_busy code u, complete_done code u⟩

end Sys2Proof.Machine
end

section
/-!
The machine's state (10_state). Every step keeps the invariant; what a command may write and what its outputs depend on;
what the registers hold, and what a read at the port can tell of the state.
-/

namespace Sys2Proof.Machine

/-! ## Key words and their marks (10_state R29, R36) -/

theorem Quad.get_set (q : Quad) (i j : Fin 4) (v : Word) : (q.set i v).get j = if j = i then v else q.get j := by
  fin_cases i <;> fin_cases j <;> rfl

@[simp] theorem Quad.get_zero (i : Fin 4) : Quad.zero.get i = 0 := by
  fin_cases i <;> rfl

theorem getLsbD_markKey (mask : BitVec 4) (i j : Fin 4) :
    (markKey mask i).getLsbD j.val = (decide (j = i) || mask.getLsbD j.val) := by
  have hbit : (1#4 <<< i.val).getLsbD j.val = decide (j = i) := by
    revert i j; decide
  rw [markKey, BitVec.getLsbD_or, hbit, Bool.or_comm]

/-- A key word that is written is marked, so the unmarked ones stay zero. -/
theorem unmarkedKeyZero_writeKey {s : State} (h : unmarkedKeyZero s) (i : Fin 4) (v : Word) :
    unmarkedKeyZero { s with key := s.key.set i v, keymask := markKey s.keymask i } := by
  intro j hj
  obtain ⟨hne, hmask⟩ : j ≠ i ∧ s.keymask.getLsbD j.val = false := by
    have hmark := (getLsbD_markKey s.keymask i j).symm.trans hj
    simpa only [Bool.or_eq_false_iff, decide_eq_false_iff_not] using hmark
  exact (Quad.get_set s.key i j v).trans ((if_neg hne).trans (h j hmask))

/-! ## The invariant -/

/-- Settles O39. -/
theorem resetMeetsInv : Obligations.ResetMeetsInv :=
  { mem := reset_mem_wf
    fsm := rfl
    hidden := ⟨rfl, rfl, rfl, rfl, rfl, rfl, rfl⟩
    cmdqIdle := fun _ => rfl
    cmdqBusy := fun h => nomatch h
    doneBusy := fun h => nomatch h
    result := nofun
    key := fun i _ => Quad.get_zero i }

/-- The invariant says nothing of `rst`, the agenda and the port's answer. -/
theorem Inv.of_event {s : State} (h : Inv s) (level : Bool) (rest : List Event) (r : Option BusReply) :
    Inv { s with rst := level, agenda := rest, reply := r } :=
  h.transfer rfl rfl rfl rfl rfl rfl rfl rfl h.hidden

theorem accept_inv {w : Word} {s : State} (h : Inv s) (hw : present w ≠ .nop) : Inv (accept w s) :=
  { mem := h.mem
    fsm := rfl
    hidden := h.hidden
    cmdqIdle := fun hb => nomatch hb
    cmdqBusy := fun _ => hw
    doneBusy := fun _ => rfl
    result := h.result
    key := h.key }

/-- The acknowledgement as one update (10_state R32). -/
theorem acknowledge_eq (v : Word) (s : State) : acknowledge v s = { s with doneIp := s.doneIp && !v.getLsbD 0 } := by
  unfold acknowledge
  cases v.getLsbD 0 with
  | false => simp
  | true => simp

/-- Every write at the port keeps the invariant. -/
theorem PortWrote.inv {s t : State} (hw : PortWrote s t) (h : Inv s) : Inv t := by
  cases hw with
  | unchanged => exact h
  | accepted w _ hnop => exact accept_inv h hnop
  | irqStat v =>
    rw [acknowledge_eq]
    exact h.transfer rfl rfl rfl rfl rfl rfl rfl rfl h.hidden
  | irqEn | aadLen | msgLen | tag => exact h.transfer rfl rfl rfl rfl rfl rfl rfl rfl h.hidden
  | key i v => exact { h with key := unmarkedKeyZero_writeKey h.key i v }
  | buffer a bs _ ha => exact { h with mem := Memory.writeBytes_wf h.mem ha }

/-- An accepted command completes in a state that meets the invariant. -/
theorem exec_cmdq_inv {s t : State} (h : Inv s) (hb : s.busy = true) (hexec : exec (decodeWord s.cmdq) s = .next t) :
    Inv t := by
  obtain ⟨code, u, hu, hw⟩ := exec_completes (h.cmdqBusy hb) s
  rw [hu] at hexec
  cases hexec
  exact complete_inv (hw.mem_wf h.mem) hw.code_ne_unknown

/-- Settles O40, along the cases of a step: an accepted command ends in the completion record, a write at the port keeps
the invariant, the reset sequence leaves the reset state, and every other event touches nothing the invariant names. -/
theorem stepKeepsInv : Obligations.StepKeepsInv := by
  intro s t h hstep
  cases step_next_cases hstep with
  | waits => exact h
  | core rest _ _ hb hexec => exact exec_cmdq_inv (h.of_event s.rst rest s.reply) hb hexec
  | coreIdle rest => exact h.of_event s.rst rest s.reply
  | answered rest r => exact h.of_event s.rst rest (some r)
  | wrote rest u r hw =>
    have hu : Inv u := hw.inv (h.of_event s.rst rest s.reply)
    exact hu.of_event u.rst u.agenda (some r)
  | rst rest level => exact h.of_event level rest s.reply
  | reset rest => exact Inv.of_event resetMeetsInv false rest none

/-! ## What a command writes (10_state R34 to R39) -/

theorem sameLengths_writeMsg (s : State) (bs : List Byte) : SameLengths s (s.writeMsg bs) := ⟨rfl, rfl⟩

theorem sameLengths_writeTag (s : State) (bs : List Byte) : SameLengths s (s.writeTag bs) := ⟨rfl, rfl⟩

theorem Wrote.sameLengths {s u : State} {i : Instr} {code : ResultCode} (h : Wrote s i code u)
    (hi : ∀ tlen, i ≠ .clear tlen) : SameLengths s u := by
  cases h with
  | nothing => exact ⟨rfl, rfl⟩
  | wrap =>
    obtain ⟨haad, hmsg⟩ := sameLengths_writeMsg s (wrapFn (keyOperand s) (aadOperand s) (msgOperand s)).1
    exact ⟨(writeTag_aadLen _ _).trans haad, (writeTag_msgLen _ _).trans hmsg⟩
  | unwrap => exact sameLengths_writeMsg s _
  | mac => exact sameLengths_writeTag s _
  | clear tlen => exact absurd rfl (hi tlen)

/-- MSG_LEN bytes written to the MSG buffer leave every byte outside them. -/
theorem read_writeMsg_outside (s : State) {bs : List Byte} (hlen : bs.length = s.msgLen.toNat) {a : Nat}
    (ha : a < msgBase ∨ msgBase + s.msgLen.toNat ≤ a) : (s.writeMsg bs).mem.read a = s.mem.read a :=
  Memory.read_writeBytes_outside s.mem bs (hlen ▸ ha)

theorem Wrote.read_outside_msg {s u : State} {i : Instr} {code : ResultCode} (h : Wrote s i code u)
    (hi : ∀ tlen, i ≠ .clear tlen) {a : Nat} (ha : a < msgBase ∨ msgBase + s.msgLen.toNat ≤ a) :
    u.mem.read a = s.mem.read a := by
  cases h with
  | nothing => rfl
  | mac => rw [writeTag_mem]
  | wrap =>
    rw [writeTag_mem]
    exact read_writeMsg_outside s (by rw [length_wrapFn, length_msgOperand]) ha
  | unwrap => exact read_writeMsg_outside s (by rw [length_unwrapFn, length_msgOperand]) ha
  | clear tlen => exact absurd rfl (hi tlen)

theorem Wrote.sameMemory {s u : State} {i : Instr} {code : ResultCode} (h : Wrote s i code u)
    (hclear : ∀ tlen, i ≠ .clear tlen) (hi : ∀ tlen, i ≠ .wrap tlen ∧ i ≠ .unwrap tlen) : SameMemory s u := by
  cases h with
  | nothing => exact fun _ => rfl
  | mac => exact fun _ => by rw [writeTag_mem]
  | wrap tlen => exact absurd rfl (hi tlen).1
  | unwrap tlen => exact absurd rfl (hi tlen).2
  | clear tlen => exact absurd rfl (hclear tlen)

theorem Wrote.tag_eq {s u : State} {i : Instr} {code : ResultCode} (h : Wrote s i code u)
    (hclear : ∀ tlen, i ≠ .clear tlen) (hi : ∀ tlen, i ≠ .wrap tlen ∧ i ≠ .mac tlen) : u.tag = s.tag := by
  cases h with
  | nothing => rfl
  | unwrap => exact writeMsg_tag _ s
  | wrap tlen => exact absurd rfl (hi tlen).1
  | mac tlen => exact absurd rfl (hi tlen).2
  | clear tlen => exact absurd rfl (hclear tlen)

/-- Settles O34: a Nop leaves the state itself, and the completion record touches no output. -/
theorem onlyNamedCommandsWriteOutputs : Obligations.OnlyNamedCommandsWriteOutputs := by
  intro i s t hexec
  rcases exec_next_cases hexec with ⟨_, _, rfl⟩ | ⟨code, u, rfl, hw⟩
  · exact ⟨⟨rfl, rfl, rfl, rfl⟩, fun _ => ⟨⟨rfl, rfl⟩, fun _ _ => rfl, fun _ _ => rfl, fun _ => rfl⟩⟩
  · exact ⟨hw.surroundings, fun hclear =>
      ⟨hw.sameLengths hclear, fun _ ha => hw.read_outside_msg hclear ha, hw.sameMemory hclear, hw.tag_eq hclear⟩⟩

/-! ## What a command's outputs depend on (10_state R46) -/

/-- Two states hold the same operands, each in a memory of canonical form. -/
structure SameOperands (s s' : State) : Prop where
  keymask : s.keymask = s'.keymask
  key : s.key = s'.key
  tag : s.tag = s'.tag
  aadLen : s.aadLen = s'.aadLen
  msgLen : s.msgLen = s'.msgLen
  wf : s.mem.wf = true
  wf' : s'.mem.wf = true
  aad : aadOperand s = aadOperand s'
  msg : msgOperand s = msgOperand s'

/-- Two states hold the same RESULT, TAG and message bytes. -/
def SameOutputs (t t' : State) : Prop := t.result = t'.result ∧ t.tag = t'.tag ∧ msgOperand t = msgOperand t'

/-- In a memory of canonical form a byte string written to a buffer reads back. -/
theorem Memory.readBytes_writeBytes {m : Memory} {a : Nat} {bs : List Byte} (h : m.wf = true)
    (ha : ∀ i < bs.length, bufferOffset (a + i) = true) : (m.writeBytes a bs).readBytes a bs.length = bs := by
  refine List.ext_getElem (Memory.length_readBytes _ _ _) fun i _ hi => ?_
  have hbyte : (m.writeBytes a bs).read (a + i) = bs.getD i 0 := by
    rw [Memory.read_writeBytes h ha, if_pos (by omega), Nat.add_sub_cancel_left]
  rw [← List.getD_eq_getElem _ 0, Memory.getD_readBytes _ _ hi, hbyte, List.getD_eq_getElem _ _ hi]

/-- What is written to `MSG[0 .. MSG_LEN-1]` is the message operand from then on. -/
theorem msgOperand_writeMsg {s : State} {bs : List Byte} (hwf : s.mem.wf = true) (hmax : s.msgLen.toNat ≤ 1024)
    (hlen : bs.length = s.msgLen.toNat) : msgOperand (s.writeMsg bs) = bs := by
  rw [msgOperand, writeMsg_msgLen, ← hlen]
  exact Memory.readBytes_writeBytes hwf fun _ hi => bufferOffset_msg (by omega)

/-- The tag is no part of the message operand. -/
theorem msgOperand_writeTag (s : State) (bs : List Byte) : msgOperand (s.writeTag bs) = msgOperand s := rfl

theorem SameOperands.validateKeyed_eq {s s' : State} (h : SameOperands s s') (usesAad : Bool) (tlen : Byte) :
    validateKeyed usesAad tlen s = validateKeyed usesAad tlen s' := by
  simp only [validateKeyed, h.keymask, h.aadLen, h.msgLen]

/-- The completion record keeps the outputs alike. -/
theorem complete_sameOutputs {u u' : State} (code : ResultCode) (htag : u.tag = u'.tag)
    (hmsg : msgOperand u = msgOperand u') : SameOutputs (complete code u) (complete code u') :=
  ⟨rfl, htag, hmsg⟩

theorem SameOperands.sameOutputs_afterValidation {s s' : State} (h : SameOperands s s') {usesAad : Bool} {tlen : Byte}
    {onOk onOk' : State} (hok : validateKeyed usesAad tlen s = .ok → SameOutputs onOk onOk') :
    SameOutputs (afterValidation (validateKeyed usesAad tlen s) s onOk)
      (afterValidation (validateKeyed usesAad tlen s') s' onOk') := by
  rw [← h.validateKeyed_eq]
  cases hv : validateKeyed usesAad tlen s with
  | ok => exact hok hv
  | fail => exact complete_sameOutputs .fail h.tag h.msg
  | badHashBitLen => exact complete_sameOutputs .badHashBitLen h.tag h.msg

theorem SameOperands.msgOperand_writeMsg_eq {s s' : State} (h : SameOperands s s') {bs : List Byte}
    (hmax : s.msgLen.toNat ≤ 1024) (hlen : bs.length = s.msgLen.toNat) :
    msgOperand (s.writeMsg bs) = msgOperand (s'.writeMsg bs) := by
  rw [msgOperand_writeMsg h.wf hmax hlen, msgOperand_writeMsg h.wf' (h.msgLen ▸ hmax) (h.msgLen ▸ hlen)]

theorem SameOperands.sameOutputs_wrapDone {s s' : State} (h : SameOperands s s') (hmax : s.msgLen.toNat ≤ 1024) :
    SameOutputs (wrapDone s) (wrapDone s') := by
  have hkey : keyOperand s = keyOperand s' := congrArg Quad.bytes h.key
  simp only [wrapDone, ← hkey, ← h.aad, ← h.msg]
  refine complete_sameOutputs _ (by rw [writeTag_tag, writeTag_tag]) ?_
  rw [msgOperand_writeTag, msgOperand_writeTag]
  exact h.msgOperand_writeMsg_eq hmax (by rw [length_wrapFn, length_msgOperand])

theorem SameOperands.sameOutputs_unwrapDone {s s' : State} (h : SameOperands s s') (hmax : s.msgLen.toNat ≤ 1024) :
    SameOutputs (unwrapDone s) (unwrapDone s') := by
  have hkey : keyOperand s = keyOperand s' := congrArg Quad.bytes h.key
  have htag : tagOperand s = tagOperand s' := congrArg Quad.bytes h.tag
  simp only [unwrapDone, ← hkey, ← htag, ← h.aad, ← h.msg]
  exact complete_sameOutputs _ (by rw [writeMsg_tag, writeMsg_tag, h.tag])
    (h.msgOperand_writeMsg_eq hmax (by rw [length_unwrapFn, length_msgOperand]))

theorem SameOperands.sameOutputs_macDone {s s' : State} (h : SameOperands s s') :
    SameOutputs (macDone s) (macDone s') := by
  have hkey : keyOperand s = keyOperand s' := congrArg Quad.bytes h.key
  simp only [macDone, ← hkey, ← h.msg]
  exact complete_sameOutputs _ (by rw [writeTag_tag, writeTag_tag])
    (by rw [msgOperand_writeTag, msgOperand_writeTag, h.msg])

/-- Settles O36: validation decides alike on the same operands, and what is then written is a function of them. -/
theorem outputsDependOnlyOnOperands : Obligations.OutputsDependOnlyOnOperands := by
  intro tlen s s' t t' hkeymask hkey htag haadLen hmsgLen hwf hwf' haad hmsg i hi hexec hexec'
  have h : SameOperands s s' := ⟨hkeymask, hkey, htag, haadLen, hmsgLen, hwf, hwf', haad, hmsg⟩
  simp only [List.mem_cons, List.not_mem_nil, or_false] at hi
  obtain rfl | rfl | rfl := hi <;> cases hexec <;> cases hexec'
  · exact h.sameOutputs_afterValidation fun hv => h.sameOutputs_wrapDone (validateKeyed_ok.1 hv).2.2.1
  · exact h.sameOutputs_afterValidation fun hv => h.sameOutputs_unwrapDone (validateKeyed_ok.1 hv).2.2.1
  · exact h.sameOutputs_afterValidation fun _ => h.sameOutputs_macDone

/-! ## A register at the port -/

/-- A 4-byte access to a mapped register passes every check but that of BUSY (20_memory R66). -/
theorem accessible_reg {a : Nat} {r : Reg} (h : regAt a = some r) (s : State) :
    accessible s a 4 = !(s.busy && busyRefused a) := by
  have hform : (aligned a 4 && mapped a 4 && (decide (0x1000 ≤ a) || 4 == 4)) = true := by
    simp only [regAt] at h
    split at h <;> cases h <;> decide
  rw [accessible, hform, Bool.true_and]

theorem accessible_reg_of_idle {a : Nat} {r : Reg} (h : regAt a = some r) {s : State} (hb : s.busy = false) :
    accessible s a 4 = true := by
  rw [accessible_reg h, hb]; rfl

/-- A register that is not refused while BUSY = 1 is accessible in every state. -/
theorem accessible_reg_of_not_refused {a : Nat} {r : Reg} (h : regAt a = some r) (hn : busyRefused a = false)
    (s : State) : accessible s a 4 = true := by
  rw [accessible_reg h, hn, Bool.and_false]; rfl

theorem lt_of_regAt {a : Nat} {r : Reg} (h : regAt a = some r) : a < 0x1000 := by
  simp only [regAt] at h
  split at h <;> cases h <;> decide

theorem memRead_reg {s : State} {addr : Offset} {r : Reg} (h : regAt addr.toNat = some r)
    (hacc : accessible s addr.toNat 4 = true) : memRead s addr 4 = .ok (readReg s r) := by
  rw [memRead, if_pos hacc, if_pos (lt_of_regAt h), h]

theorem memWrite_reg {s : State} {addr : Offset} {r : Reg} (h : regAt addr.toNat = some r)
    (hacc : accessible s addr.toNat 4 = true) (v : Word) : memWrite addr 4 v s = writeReg r v s := by
  rw [memWrite, if_pos hacc, if_pos (lt_of_regAt h), h]

/-- A register write that neither reads nor changes the agenda gets OKAY and leaves its effect `f`, at the port and as
the step that takes it. -/
theorem writesOkay_reg {s : State} {addr : Offset} {r : Reg} {v : Word} (f : State → State)
    (h : regAt addr.toNat = some r) (hacc : accessible s addr.toNat 4 = true)
    (hw : ∀ u, writeReg r v u = .next (f u))
    (hf : ∀ rest, f { s with agenda := rest } = { f s with agenda := rest }) : WritesOkay s addr v (f s) := by
  refine ⟨(memWrite_reg h hacc v).trans (hw s), fun rest hrst hag => ?_⟩
  have hport : memWrite addr 4 v { s with agenda := rest } = .next { f s with agenda := rest } := by
    rw [memWrite_reg (s := { s with agenda := rest }) h hacc, hw, hf]
  rw [step_bus hrst hag, hostTurn, hport]
  rfl

theorem regAt_key (i : Fin 4) : regAt (0x040 + 4 * i.val) = some (.key i) := by fin_cases i <;> rfl

theorem regAt_tag (i : Fin 4) : regAt (0x050 + 4 * i.val) = some (.tag i) := by fin_cases i <;> rfl

/-! ## The registers (10_state R21 to R37) -/

/-- Settles O50. -/
theorem keyIsWriteOnly : Obligations.KeyIsWriteOnly := by
  intro s i addr v hb haddr
  have hreg : regAt addr.toNat = some (.key i) := haddr ▸ regAt_key i
  refine ⟨{ s with key := s.key.set i v, keymask := markKey s.keymask i },
    writesOkay_reg (fun u => { u with key := u.key.set i v, keymask := markKey u.keymask i }) hreg
      (accessible_reg_of_idle hreg hb) (fun _ => rfl) (fun _ => rfl),
    rfl, fun j => Quad.get_set s.key i j v, getLsbD_markKey s.keymask i, ?_, ?_⟩
  · exact memRead_reg hreg (accessible_reg_of_idle hreg hb)
  · exact memRead_reg hreg (accessible_reg_of_idle hreg hb)

/-- Settles O51. -/
theorem readWriteRegistersHoldTheirWord : Obligations.ReadWriteRegistersHoldTheirWord := by
  intro s v hb
  have hacc {a : Nat} {r : Reg} (h : regAt a = some r) : accessible s a 4 = true := accessible_reg_of_idle h hb
  have haad : regAt (0x024 : Offset).toNat = some .aadLen := rfl
  have hmsg : regAt (0x028 : Offset).toNat = some .msgLen := rfl
  refine ⟨writesOkay_reg (fun u => { u with aadLen := v }) haad (hacc haad) (fun _ => rfl) (fun _ => rfl),
    memRead_reg haad (hacc haad),
    writesOkay_reg (fun u => { u with msgLen := v }) hmsg (hacc hmsg) (fun _ => rfl) (fun _ => rfl),
    memRead_reg hmsg (hacc hmsg), fun i addr haddr => ?_⟩
  have htag : regAt addr.toNat = some (.tag i) := haddr ▸ regAt_tag i
  refine ⟨s.tag.set i v,
    writesOkay_reg (fun u => { u with tag := u.tag.set i v }) htag (hacc htag) (fun _ => rfl) (fun _ => rfl), ?_,
    fun j hj => (Quad.get_set s.tag i j v).trans (if_neg hj)⟩
  have hread := memRead_reg (s := { s with tag := s.tag.set i v }) htag (hacc htag)
  rwa [readReg, Quad.get_set, if_pos rfl] at hread

theorem getLsbD_bitWord (b : Bool) (i : Nat) : (bitWord b).getLsbD i = (decide (i = 0) && b) := by
  by_cases hi : i = 0
  · subst hi; cases b <;> rfl
  · simp [bitWord, hi]

/-- Bit by bit, STATUS (10_state R27 to R29). -/
theorem getLsbD_statusWord (s : State) (i : Nat) :
    (statusWord s).getLsbD i =
      if i = 0 then s.busy else if i = 1 then s.done
      else if 8 ≤ i ∧ i < 12 then s.keymask.getLsbD (i - 8) else false := by
  simp only [statusWord, BitVec.getLsbD_or, BitVec.getLsbD_shiftLeft, BitVec.getLsbD_setWidth, getLsbD_bitWord]
  by_cases h0 : i = 0
  · simp [h0]
  by_cases h1 : i = 1
  · simp [h1]
  by_cases h8 : 8 ≤ i
  · by_cases h12 : i < 12
    · simp [h0, h1, h8, h12, show i - 1 ≠ 0 by omega, show i < 32 by omega, show i - 8 < 32 by omega]
    · simp [h0, h1, h12, show i - 1 ≠ 0 by omega, BitVec.getLsbD_of_ge s.keymask (i - 8) (by omega)]
  · simp [h0, h1, h8, show i - 1 ≠ 0 by omega, show i < 8 by omega]

/-- Settles O53. -/
theorem statusLayout : Obligations.StatusLayout := by
  intro s
  have hreg : regAt (0x014 : Offset).toNat = some .status := rfl
  exact ⟨statusWord s, memRead_reg hreg (accessible_reg_of_not_refused hreg rfl s), fun i _ => getLsbD_statusWord s i⟩

theorem bitWord_eq (b : Bool) : bitWord b = if b then 1 else 0 := by cases b <;> rfl

theorem bitWord_eq_one {b : Bool} : bitWord b = 1 ↔ b = true := by cases b <;> decide

/-- Settles O54. -/
theorem interruptRegistersAndPin : Obligations.InterruptRegistersAndPin := by
  intro s v
  have hen : regAt (0x01C : Offset).toNat = some .irqEn := rfl
  have hstat : regAt (0x020 : Offset).toNat = some .irqStat := rfl
  have haccEn := accessible_reg_of_not_refused hen rfl s
  have haccStat := accessible_reg_of_not_refused hstat rfl s
  refine ⟨writesOkay_reg (fun u => { u with doneIe := v.getLsbD 0 }) hen haccEn (fun _ => rfl) (fun _ => rfl),
    writesOkay_reg (fun u => { u with doneIp := u.doneIp && !v.getLsbD 0 }) hstat haccStat
      (fun u => congrArg Host.Outcome.next (acknowledge_eq v u)) (fun _ => rfl),
    irqEnWord s, irqStatWord s, memRead_reg hen haccEn, memRead_reg hstat haccStat, bitWord_eq s.doneIe,
    bitWord_eq s.doneIp, fun hrst => ?_⟩
  rw [irqStatWord, irqEnWord, bitWord_eq_one, bitWord_eq_one, irq, hrst, Bool.not_false, Bool.true_and,
    Bool.and_eq_true]

/-- RESULT reads the number of its code (30_encoding R95). -/
theorem resultWord_of_result {s : State} {c : ResultCode} (h : s.result = c) : resultWord s = c.code.setWidth 32 := by
  rw [resultWord, h]

/-- Settles O52. -/
theorem readOnlyRegistersIgnoreWrites : Obligations.ReadOnlyRegistersIgnoreWrites := by
  intro s v
  have read {addr : Offset} {r : Reg} (h : regAt addr.toNat = some r) (hn : busyRefused addr.toNat = false) :
      memRead s addr 4 = .ok (readReg s r) := memRead_reg h (accessible_reg_of_not_refused h hn s)
  have ignored {addr : Offset} {r : Reg} (h : regAt addr.toNat = some r) (hn : busyRefused addr.toNat = false)
      (hw : ∀ u, writeReg r v u = .next u) : WritesOkay s addr v s :=
    writesOkay_reg id h (accessible_reg_of_not_refused h hn s) hw fun _ => rfl
  refine ⟨read (r := .id) rfl rfl, read (r := .param0) rfl rfl, read (r := .param1) rfl rfl,
    read (r := .bufparam) rfl rfl, fun c hc hres => ?_, fun hb => ?_, fun addr haddr => ?_⟩
  · rw [read (addr := 0x018) (r := .result) rfl rfl, readReg, resultWord_of_result hres]
    simp only [List.mem_cons, List.not_mem_nil, or_false] at hc
    obtain rfl | rfl | rfl | rfl | rfl := hc <;> rfl
  · exact memRead_reg (addr := 0x010) (r := .cmd) rfl (accessible_reg_of_idle (r := .cmd) rfl hb)
  · simp only [List.mem_cons, List.not_mem_nil, or_false] at haddr
    obtain rfl | rfl | rfl | rfl | rfl | rfl := haddr
    · exact ignored (r := .id) rfl rfl fun _ => rfl
    · exact ignored (r := .param0) rfl rfl fun _ => rfl
    · exact ignored (r := .param1) rfl rfl fun _ => rfl
    · exact ignored (r := .bufparam) rfl rfl fun _ => rfl
    · exact ignored (r := .status) rfl rfl fun _ => rfl
    · exact ignored (r := .result) rfl rfl fun _ => rfl

/-! ## What a read can tell (10_state R27, R36, R41; 20_memory R70) -/

/-- A read depends on BUSY, on the register it reaches, and on the buffer bytes it reaches, where it is not refused. -/
theorem memRead_congr {s s' : State} {addr : Offset} {size : Nat} (hbusy : s.busy = s'.busy)
    (hreg : ∀ r, regAt addr.toNat = some r → accessible s addr.toNat size = true → readReg s r = readReg s' r)
    (hmem : 0x1000 ≤ addr.toNat → accessible s addr.toNat size = true → s.mem = s'.mem) :
    memRead s addr size = memRead s' addr size := by
  have hacc : accessible s' addr.toNat size = accessible s addr.toNat size := by simp only [accessible, hbusy]
  simp only [memRead, hacc]
  split
  next hok =>
    split
    · cases hr : regAt addr.toNat with
      | some r => exact congrArg Except.ok (hreg r hr hok)
      | none => rfl
    next hge => rw [hmem (by omega) hok]
  · rfl

/-- A busy core reads out no busy-refused offset. -/
theorem not_refused_of_accessible {s : State} {a size : Nat} (hb : s.busy = true)
    (hacc : accessible s a size = true) : busyRefused a ≠ true :=
  fun hr => absurd (accessible_idle hacc hr) (by simp [hb])

/-- Settles O55: the registers that hold data, and both buffers, are refused while BUSY = 1. -/
theorem busyPortRevealsNoData : Obligations.BusyPortRevealsNoData := by
  intro s s' addr size hb hb' hdone hmask hres hie hip
  refine memRead_congr (hb.trans hb'.symm) (fun r hr hacc => ?_) fun hge hacc => ?_
  · have hopen := mt (busyRefused_of_regAt hr).2 (not_refused_of_accessible hb hacc)
    cases r with
    | id | param0 | param1 | bufparam => rfl
    | status => simp only [readReg, statusWord, hb, hb', hdone, hmask]
    | result => simp only [readReg, resultWord, hres]
    | irqEn => simp only [readReg, irqEnWord, hie]
    | irqStat => simp only [readReg, irqStatWord, hip]
    | cmd | aadLen | msgLen | key | tag => simp at hopen
  · exact absurd (by simp [busyRefused, hge]) (not_refused_of_accessible hb hacc)

/-- Settles O56: no register that a read reaches shows the key or a hidden register. -/
theorem keyAndStateAreNeverReadable : Obligations.KeyAndStateAreNeverReadable := by
  intro s s' addr size h
  rw [h]
  refine memRead_congr rfl (fun r _ _ => ?_) fun _ _ => rfl
  cases r <;> rfl

/-! ## Memory and the reset values -/

/-- An entry of a canonical memory does not lie below another memory that reads the same there. -/
theorem Memory.le_of_read_ne_zero {m : Memory} {lo a : Nat} (h : Memory.wfFrom lo m = true) (ha : m.read a ≠ 0) :
    lo ≤ a :=
  Nat.le_of_not_lt fun hlt => ha (Memory.read_below h hlt)

theorem Memory.read_cons_self (a : Nat) (v : Byte) (rest : Memory) : Memory.read ((a, v) :: rest) a = v := if_pos rfl

/-- The entries above the first read as the whole memory does there, and as 0 elsewhere. -/
theorem Memory.read_tail {a : Nat} {v : Byte} {rest : Memory} (h : Memory.wfFrom (a + 1) rest = true) (x : Nat) :
    rest.read x = if x ≤ a then 0 else Memory.read ((a, v) :: rest) x := by
  split
  · exact Memory.read_below h (by omega)
  · rw [Memory.read, if_neg (by omega)]

/-- By induction on the list: the first entry is the lowest offset that reads other than 0. -/
theorem Memory.eq_of_read_eq {m m' : Memory} {lo lo' : Nat} (h : Memory.wfFrom lo m = true)
    (h' : Memory.wfFrom lo' m' = true) (hread : ∀ a, m.read a = m'.read a) : m = m' := by
  induction m generalizing lo lo' m' with
  | nil =>
    cases m' with
    | nil => rfl
    | cons c rest' =>
      obtain ⟨b, w⟩ := c
      obtain ⟨_, _, hw, _⟩ := Memory.wfFrom_cons.1 h'
      exact absurd ((Memory.read_cons_self b w rest').symm.trans (hread b).symm) hw
  | cons c rest ih =>
    obtain ⟨a, v⟩ := c
    obtain ⟨_, hbuf, hv, hrest⟩ := Memory.wfFrom_cons.1 h
    cases m' with
    | nil => exact absurd ((Memory.read_cons_self a v rest).symm.trans (hread a)) hv
    | cons c' rest' =>
      obtain ⟨b, w⟩ := c'
      obtain ⟨_, hbuf', hw, hrest'⟩ := Memory.wfFrom_cons.1 h'
      have hab : a ≤ b := by
        refine Memory.le_of_read_ne_zero (Memory.wfFrom_cons.2 ⟨le_rfl, hbuf, hv, hrest⟩) ?_
        rwa [hread, Memory.read_cons_self]
      have hba : b ≤ a := by
        refine Memory.le_of_read_ne_zero (Memory.wfFrom_cons.2 ⟨le_rfl, hbuf', hw, hrest'⟩) ?_
        rwa [← hread, Memory.read_cons_self]
      obtain rfl := Nat.le_antisymm hab hba
      have hvw : v = w := by simpa only [Memory.read_cons_self] using hread a
      have htail : rest = rest' := ih hrest hrest' fun x => by
        rw [Memory.read_tail (v := v) hrest, Memory.read_tail (v := w) hrest', hread]
      rw [hvw, htail]

/-- Settles O59. -/
theorem canonicalMemoryIsUnique : Obligations.CanonicalMemoryIsUnique :=
  fun _ _ h h' hread => Memory.eq_of_read_eq h h' hread

/-- Settles O38: the reset memory lists no byte, and every register and hidden register of the reset state is zero. -/
theorem resetValues : Obligations.ResetValues :=
  ⟨rfl, rfl, rfl, rfl, rfl, rfl, rfl, rfl, reset_mem_read, ⟨rfl, rfl, rfl, rfl, rfl, rfl, rfl⟩, rfl, rfl, rfl⟩

end Sys2Proof.Machine
end

section
/-!
The slave port (20_memory). An access that fails one of the checks gets ERROR and changes nothing else; a buffer access
that passes them stores or reads its bytes little-endian; a read changes only the port's answer.
-/

namespace Sys2Proof.Machine

/-! ## The checks (20_memory R66) -/

/-- The four checks as one proposition about the offset, the size and BUSY. -/
theorem accessible_iff {s : State} {a size : Nat} :
    accessible s a size = true ↔
      ((size = 1 ∨ size = 2 ∨ size = 4) ∧ a % size = 0) ∧
      (a + size ≤ 0x02C ∨ (0x040 ≤ a ∧ a + size ≤ 0x060) ∨ (0x1000 ≤ a ∧ a + size ≤ 0x1100) ∨
        (0x2000 ≤ a ∧ a + size ≤ 0x2400)) ∧
      (0x1000 ≤ a ∨ size = 4) ∧ (s.busy = true → busyRefused a = false) := by
  simp [accessible, aligned, mapped, inPart, and_assoc, or_assoc, imp_iff_not_or]

/-- An offset of the AAD or MSG buffer, aligned to the size, passes every check while the core is idle: no aligned access
straddles the end of a buffer. -/
theorem accessible_buffer_of_idle {s : State} {a size : Nat} (hb : s.busy = false) (hsize : size ∈ [1, 2, 4])
    (halign : a % size = 0) (hbuf : (0x1000 ≤ a ∧ a < 0x1100) ∨ (0x2000 ≤ a ∧ a < 0x2400)) :
    accessible s a size = true := by
  have hsize : size = 1 ∨ size = 2 ∨ size = 4 := by simpa using hsize
  have hfits : (0x1000 ≤ a ∧ a + size ≤ 0x1100) ∨ (0x2000 ≤ a ∧ a + size ≤ 0x2400) := by
    obtain rfl | rfl | rfl := hsize <;> omega
  exact accessible_iff.2 ⟨⟨hsize, halign⟩, .inr (.inr hfits), .inl (by omega), by simp [hb]⟩

/-! ## The step that takes a transaction -/

/-- A read consults neither the agenda nor the last answer. -/
theorem memRead_with_agenda (s : State) (rest : List Event) (addr : Offset) (size : Nat) :
    memRead { s with agenda := rest } addr size = memRead s addr size :=
  memRead_congr rfl (fun r _ _ => by cases r <;> rfl) fun _ _ => rfl

theorem step_read {s : State} {addr : Offset} {size : Nat} {rest : List Event} (hr : s.rst = false)
    (ha : s.agenda = .bus (.read addr size) :: rest) :
    step s = .next { s with agenda := rest, reply := some (readReply (memRead s addr size)) } := by
  rw [step_bus hr ha, hostTurn, memRead_with_agenda]

theorem step_write_okay {s t : State} {addr : Offset} {size : Nat} {v : Word} {rest : List Event} (hr : s.rst = false)
    (ha : s.agenda = .bus (.write addr size v) :: rest)
    (hw : memWrite addr size v { s with agenda := rest } = .next t) :
    step s = .next { t with reply := some (writeReply .okay) } := by
  simp only [step_bus hr ha, hostTurn, hw]

theorem step_write_error {s : State} {addr : Offset} {size : Nat} {v : Word} {rest : List Event} {f : Fault}
    (hr : s.rst = false) (ha : s.agenda = .bus (.write addr size v) :: rest)
    (hw : memWrite addr size v { s with agenda := rest } = .fault f) :
    step s = .next { s with agenda := rest, reply := some (writeReply .error) } := by
  simp only [step_bus hr ha, hostTurn, hw]

/-- Settles O47. -/
theorem readsHaveNoSideEffect : Obligations.ReadsHaveNoSideEffect := by
  intro s addr size rest hr ha
  exact ⟨fun v hv => by rw [step_read hr ha, hv, readReply], fun f hf => by rw [step_read hr ha, hf, readReply]⟩

/-! ## Refused accesses (20_memory R68, R70; 60_exceptions R255) -/

theorem memRead_refused {s : State} {addr : Offset} {size : Nat} (h : accessible s addr.toNat size ≠ true) :
    memRead s addr size = .error (.busError addr) := by
  rw [memRead, if_neg h]

theorem memWrite_refused {s : State} {addr : Offset} {size : Nat} (h : accessible s addr.toNat size ≠ true) (v : Word) :
    memWrite addr size v s = .fault (.busError addr) := by
  rw [memWrite, if_neg h]

/-- Both steps that a refused access can be: only the agenda and the port's answer change. -/
theorem step_refused {s : State} {addr : Offset} {size : Nat} (h : accessible s addr.toNat size ≠ true)
    (hr : s.rst = false) (v : Word) (rest : List Event) :
    (s.agenda = .bus (.read addr size) :: rest →
      step s = .next { s with agenda := rest, reply := some { resp := .error, rdata := some 0 } }) ∧
    (s.agenda = .bus (.write addr size v) :: rest →
      step s = .next { s with agenda := rest, reply := some { resp := .error, rdata := none } }) := by
  refine ⟨fun ha => ?_, fun ha => ?_⟩
  · rw [step_read hr ha, memRead_refused h, readReply]
  · exact step_write_error hr ha (memWrite_refused (s := { s with agenda := rest }) h v)

/-- Settles O45: every offset listed is busy-refused. -/
theorem busyRefusesInputsAndOutputs : Obligations.BusyRefusesInputsAndOutputs := by
  intro s addr size v rest hr hb haddr
  have href : busyRefused addr.toNat = true := by
    obtain rfl | rfl | rfl | h | h := haddr
    · rfl
    · rfl
    · rfl
    · simp [busyRefused, h]
    · simp [busyRefused, h]
  exact step_refused (fun hacc => not_refused_of_accessible hb hacc href) hr v rest

/-- Settles O46: an access that passes the checks has a legal size, is aligned to it, is a whole word in the register
block, and lies in a mapped part. -/
theorem illegalAccessesGetError : Obligations.IllegalAccessesGetError := by
  intro s addr size v rest hr hill
  refine step_refused (fun hacc => ?_) hr v rest
  obtain ⟨⟨hsize, halign⟩, hmapped, hwide, -⟩ := accessible_iff.1 hacc
  omega

/-! ## Buffer accesses (20_memory R65 to R67) -/

theorem memRead_buffer {s : State} {addr : Offset} {size : Nat} (h : accessible s addr.toNat size = true)
    (hge : 0x1000 ≤ addr.toNat) : memRead s addr size = .ok (concatLe (s.mem.readBytes addr.toNat size)) := by
  rw [memRead, if_pos h, if_neg (by omega)]

theorem memWrite_buffer {s : State} {addr : Offset} {size : Nat} (h : accessible s addr.toNat size = true)
    (hge : 0x1000 ≤ addr.toNat) (v : Word) :
    memWrite addr size v s = .next { s with mem := s.mem.writeBytes addr.toNat (splitLe v size) } := by
  rw [memWrite, if_pos h, if_neg (by omega)]

/-- Byte `k` of the bytes driven is byte `k` of the word. -/
theorem getD_splitLe (v : Word) {size k : Nat} (hsize : size ≤ 4) (hk : k < size) :
    (splitLe v size).getD k 0 = v.extractLsb' (8 * k) 8 := by
  have hk4 : k < 4 := by omega
  rw [splitLe, List.getD_eq_getElem?_getD, List.getElem?_take_of_lt hk]
  interval_cases k <;> rfl

/-- By induction on the bytes: byte 0 is the first, and the shift moves byte `k` of the rest to byte `k + 1`. -/
theorem extractLsb'_concatLe (bs : List Byte) {k : Nat} (hk : k < 4) :
    (concatLe bs).extractLsb' (8 * k) 8 = bs.getD k 0 := by
  induction bs generalizing k with
  | nil => simp [concatLe]
  | cons b bs ih =>
    cases k with
    | zero =>
      ext i hi
      simp [concatLe, hi, show i < 32 by omega]
    | succ k =>
      rw [List.getD_cons_succ, ← ih (k := k) (by omega)]
      refine BitVec.eq_of_getLsbD_eq fun i hi => ?_
      have hshift : 8 * (k + 1) + i - 8 = 8 * k + i := by omega
      have habove : b.getLsbD (8 * (k + 1) + i) = false := BitVec.getLsbD_of_ge b _ (by omega)
      simp [concatLe, hi, hshift, habove, show 8 * (k + 1) + i < 32 by omega, show ¬8 * (k + 1) + i < 8 by omega,
        BitVec.getLsbD_eq_getElem (show 8 * k + i < 32 by omega)]

/-- Settles O48: the bytes stored are those of the word, and the memory is canonical, so each reads back. -/
theorem bufferWriteStoresBytes : Obligations.BufferWriteStoresBytes := by
  intro s addr size v rest hwf hr hb hsize halign hbuf ha
  have hacc := accessible_buffer_of_idle hb hsize halign hbuf
  have hge : 0x1000 ≤ addr.toNat := by omega
  have hsize4 : size ≤ 4 := by obtain ⟨⟨h, -⟩, -⟩ := accessible_iff.1 hacc; omega
  have hlen : (splitLe v size).length = size := by rw [length_splitLe, Nat.min_eq_left hsize4]
  refine ⟨s.mem.writeBytes addr.toNat (splitLe v size),
    step_write_okay hr ha (memWrite_buffer (s := { s with agenda := rest }) hacc hge v), fun a => ?_⟩
  rw [Memory.read_writeBytes hwf fun i hi => accessible_buffer hacc hge (hlen ▸ hi), hlen]
  split
  next hin => exact getD_splitLe v hsize4 (by omega)
  · rfl

/-- Settles O49: past the bytes read, the word's bytes are the 0 that pads the byte string. -/
theorem bufferReadConcatenatesBytes : Obligations.BufferReadConcatenatesBytes := by
  intro s addr size hb hsize halign hbuf
  refine ⟨_, memRead_buffer (accessible_buffer_of_idle hb hsize halign hbuf) (by omega), fun k hk => ?_⟩
  rw [extractLsb'_concatLe _ hk]
  split
  next hin => exact Memory.getD_readBytes _ _ hin
  next hout => exact List.getD_eq_default _ _ (by rw [Memory.length_readBytes]; omega)

end Sys2Proof.Machine
end

section
/-!
The encoding (30_encoding R90 to R96). A word is put together from slices that lie side by side, once as four fields and
once as four bytes; the decoder and the encoder undo each other on both.
-/

namespace Sys2Proof

/-! ## Joining slices of a word -/

/-- The slice of `b` bits above the lowest `a` bits joins them. -/
theorem extractLsb'_or_shiftLeft (w : Word) (a b : Nat) :
    (w.extractLsb' 0 a).setWidth 32 ||| ((w.extractLsb' a b).setWidth 32 <<< a) =
      (w.extractLsb' 0 (a + b)).setWidth 32 := by
  refine BitVec.eq_of_getLsbD_eq fun i hi => ?_
  by_cases hlow : i < a
  · simp [hi, hlow, show i < a + b by omega]
  · have hbit : a + (i - a) = i := by omega
    have hslice : i - a < b ↔ i < a + b := by omega
    simp [hi, hlow, hbit, hslice]

theorem packWord_fields (w : Word) : packWord (opField w) (rsv0Field w) (tlenField w) (rsv1Field w) = w := by
  simp only [packWord, opField, rsv0Field, tlenField, rsv1Field, extractLsb'_or_shiftLeft w 4,
    extractLsb'_or_shiftLeft w 8, extractLsb'_or_shiftLeft w 16, BitVec.extractLsb'_eq_self, BitVec.setWidth_eq]

theorem wordOfBytes_bytes (w : Word) :
    wordOfBytes (w.extractLsb' 0 8) (w.extractLsb' 8 8) (w.extractLsb' 16 8) (w.extractLsb' 24 8) = w := by
  simp only [wordOfBytes, extractLsb'_or_shiftLeft w 8, extractLsb'_or_shiftLeft w 16, extractLsb'_or_shiftLeft w 24,
    BitVec.extractLsb'_eq_self, BitVec.setWidth_eq]

/-! ## Decoding what was encoded -/

theorem decodeWord_encodeWord : ∀ {i : Instr}, i.wf = true → decodeWord (encodeWord i) = i
  | .nop tlen => Laws.RoundTrip.nop tlen
  | .wrap tlen => Laws.RoundTrip.wrap tlen
  | .unwrap tlen => Laws.RoundTrip.unwrap tlen
  | .mac tlen => Laws.RoundTrip.mac tlen
  | .clear tlen => Laws.RoundTrip.clear tlen
  | .reserved5 tlen => Laws.RoundTrip.reserved5 tlen
  | .reserved6 tlen => Laws.RoundTrip.reserved6 tlen
  | .reserved7 tlen => Laws.RoundTrip.reserved7 tlen
  | .reserved8 tlen => Laws.RoundTrip.reserved8 tlen
  | .reserved9 tlen => Laws.RoundTrip.reserved9 tlen
  | .reservedA tlen => Laws.RoundTrip.reservedA tlen
  | .reservedB tlen => Laws.RoundTrip.reservedB tlen
  | .reservedC tlen => Laws.RoundTrip.reservedC tlen
  | .reservedD tlen => Laws.RoundTrip.reservedD tlen
  | .reservedE tlen => Laws.RoundTrip.reservedE tlen
  | .reservedF tlen => Laws.RoundTrip.reservedF tlen
  | .reservedBits op rsv0 tlen rsv1 => Laws.RoundTrip.reservedBits op rsv0 tlen rsv1

theorem decode_wordBytes (w : Word) (rest : List Byte) : decode (wordBytes w ++ rest) = .ok (decodeWord w, rest) := by
  simp only [wordBytes, List.cons_append, List.nil_append, decode, wordOfBytes_bytes]

/-- Settles O1: the bytes hold the command's word, and the word its fields. -/
theorem decodeEncodeRoundTrip : Obligations.DecodeEncodeRoundTrip := by
  intro i rest hwf
  rw [encode, decode_wordBytes, decodeWord_encodeWord hwf]

/-- Settles O4: each word is the encoding of the command beside it. -/
theorem canonicalWordsDecode : Obligations.CanonicalWordsDecode :=
  ⟨decodeWord_encodeWord (i := .nop 0) rfl, decodeWord_encodeWord (i := .wrap 16) rfl,
    decodeWord_encodeWord (i := .unwrap 16) rfl, decodeWord_encodeWord (i := .mac 16) rfl,
    decodeWord_encodeWord (i := .clear 0) rfl, decodeWord_encodeWord (i := .reserved5 16) rfl,
    decodeWord_encodeWord (i := .reservedF 0) rfl, decodeWord_encodeWord (i := .reservedBits 0 1 0 0) rfl,
    decodeWord_encodeWord (i := .reservedBits 1 0 16 0x8000) rfl⟩

/-! ## Encoding what was decoded -/

/-- Every OP value has a row of its own, so the row's word holds the OP it was selected by. -/
theorem encodeWord_decodeOp (op : BitVec 4) (tlen : Byte) : encodeWord (decodeOp op tlen) = packWord op 0 tlen 0 := by
  obtain ⟨n, hn, rfl⟩ : ∃ n < 16, op = BitVec.ofNat 4 n := ⟨op.toNat, op.isLt, by simp⟩
  interval_cases n <;> rfl

theorem decodeOp_wf (op : BitVec 4) (tlen : Byte) : (decodeOp op tlen).wf = true := by
  unfold decodeOp
  split <;> rfl

theorem reservedFields_eq_zero {w : Word} (h : ¬hasReservedBits w = true) : rsv0Field w = 0 ∧ rsv1Field w = 0 := by
  simpa [hasReservedBits] using h

/-- Settles O2: a word with a reserved bit keeps all its fields, and on any other the fields not kept are 0. -/
theorem encodeDecodeRoundTrip : Obligations.EncodeDecodeRoundTrip := by
  intro w
  by_cases hres : hasReservedBits w = true
  · rw [decodeWord, if_pos hres]
    exact ⟨packWord_fields w, hres⟩
  · rw [decodeWord, if_neg hres]
    obtain ⟨h0, h1⟩ := reservedFields_eq_zero hres
    have hfields := packWord_fields w
    rw [h0, h1] at hfields
    exact ⟨(encodeWord_decodeOp _ _).trans hfields, decodeOp_wf _ _⟩

/-! ## What `present` answers (30_encoding R96) -/

theorem present_eq_nop_iff_fields {w : Word} :
    present w = .nop ↔ rsv0Field w = 0 ∧ rsv1Field w = 0 ∧ opField w = 0 := by
  simp [present]

theorem present_eq_cmd {w : Word} (h : present w ≠ .nop) : present w = .cmd (opField w) (tlenField w) :=
  if_neg fun hfields => h (present_eq_nop_iff_fields.2 hfields)

/-- Settles O3. -/
theorem nopIsExactlyZeroOpWithoutReservedBits : Obligations.NopIsExactlyZeroOpWithoutReservedBits :=
  fun _ => ⟨Machine.present_eq_nop_iff, present_eq_nop_iff_fields, present_eq_cmd⟩

end Sys2Proof
end

section
/-!
The permutation (40_permutation R120 to R128). Each layer is fixed bit by bit: a bit of its output is read off the bits
of its input. From that every layer is injective, and so is a chain of rounds.
-/

namespace Sys2Proof.Machine

/-! ## Substitution layer -/

/-- Settles O5. -/
theorem sboxIsTheSpongentTable : Obligations.SboxIsTheSpongentTable := ⟨by decide, by decide⟩

/-- The inverse table makes `sbox` surjective, and there are only 16 nibbles. -/
theorem sbox_injective : Function.Injective sbox :=
  Finite.injective_iff_surjective.2 fun y => ⟨_, sboxIsTheSpongentTable.2 y⟩

/-- Bit `i` after the lowest `k` nibbles were substituted: bit `i % 4` of what nibble `i / 4` became. -/
theorem getLsbD_sBoxLanes (S : Sponge) {k i : Nat} (hk : k ≤ 44) :
    (sBoxLanes S k).getLsbD i =
      (decide (i < 4 * k) && (sbox (S.extractLsb' (4 * (i / 4)) 4)).getLsbD (i % 4)) := by
  induction k with
  | zero => simp [sBoxLanes]
  | succ k ih =>
    rw [sBoxLanes, BitVec.getLsbD_or, ih (by omega), BitVec.getLsbD_shiftLeft, BitVec.getLsbD_setWidth]
    by_cases hlow : i < 4 * k
    · simp [hlow, show i < 4 * (k + 1) by omega]
    · by_cases hlane : i < 4 * (k + 1)
      · have hdiv : i / 4 = k := by omega
        have hmod : i - 4 * k = i % 4 := by omega
        simp [hlow, hlane, hdiv, hmod, show i < 176 by omega, show i % 4 < 176 by omega]
      · simp [hlow, hlane, BitVec.getLsbD_of_ge _ (i - 4 * k) (show 4 ≤ i - 4 * k by omega)]

/-- Settles O6. -/
theorem sBoxLayerSubstitutesEachNibble : Obligations.SBoxLayerSubstitutesEachNibble := by
  intro S k hk
  refine BitVec.eq_of_getLsbD_eq fun b hb => ?_
  have hdiv : (4 * k + b) / 4 = k := by omega
  have hmod : (4 * k + b) % 4 = b := by omega
  rw [BitVec.getLsbD_extractLsb', sBoxLayer, show params.n / 4 = 44 from rfl,
    getLsbD_sBoxLanes S le_rfl, hdiv, hmod]
  simp [hb, show 4 * k + b < 176 by omega]

/-- A state is the row of its 44 nibbles. -/
theorem sponge_ext_nibbles {A B : Sponge}
    (h : ∀ k < 44, A.extractLsb' (4 * k) 4 = B.extractLsb' (4 * k) 4) : A = B := by
  refine BitVec.eq_of_getLsbD_eq fun i hi => ?_
  have hbit := congrArg (BitVec.getLsbD · (i % 4)) (h (i / 4) (by omega))
  simpa [BitVec.getLsbD_extractLsb', Nat.mod_lt, Nat.div_add_mod] using hbit

theorem sBoxLayer_injective : Function.Injective sBoxLayer := by
  intro A B h
  refine sponge_ext_nibbles fun k hk => sbox_injective ?_
  rw [← sBoxLayerSubstitutesEachNibble A k hk, h, sBoxLayerSubstitutesEachNibble B k hk]

/-! ## Bit-permutation layer -/

/-- The wiring deals the four bits of each nibble out to the four quarters of the state. -/
theorem pwire_eq {j : Nat} (hj : j < 176) : pwire j = 44 * (j % 4) + j / 4 := by
  have h := pwire_nibble (k := j / 4) (b := j % 4) (by omega) (by omega)
  rwa [Nat.div_add_mod] at h

/-- Settles O7: `44 (4 k + b)` is `44 b + k` more than a multiple of 175. -/
theorem wiringIsABijection : Obligations.WiringIsABijection := by
  refine ⟨rfl, fun j hj => ?_, fun i hi => ?_⟩
  · rw [pwire_eq (by omega)]
    omega
  · rw [pwire_eq (by omega)]
    omega

theorem pwire_inj {i j : Nat} (hi : i < 176) (hj : j < 176) (h : pwire i = pwire j) : i = j := by
  rw [pwire_eq hi, pwire_eq hj] at h
  omega

/-- Bit `q` after a wiring: some input bit that the wiring sends to `q` is set. -/
theorem getLsbD_pBits (S : Sponge) (j : Nat) (ps : List Nat) {q : Nat} (hq : q < 176) :
    (pBits S j ps).getLsbD q = true ↔ ∃ i, ps[i]? = some q ∧ S.getLsbD (j + i) = true := by
  induction ps generalizing j with
  | nil => simp [pBits]
  | cons p ps ih =>
    have hhead : (pBits S j (p :: ps)).getLsbD q = true ↔
        (p = q ∧ S.getLsbD j = true) ∨ (pBits S (j + 1) ps).getLsbD q = true := by
      have hplace : (BitVec.twoPow 176 p).getLsbD q = true ↔ p = q := by
        simpa using fun hp : p = q => hp ▸ hq
      rw [pBits]
      cases S.getLsbD j
      · simp
      · simp only [if_true, BitVec.getLsbD_or, Bool.or_eq_true, hplace, and_true]
    rw [hhead, ih]
    constructor
    · rintro (⟨hp, hbit⟩ | ⟨i, hi, hbit⟩)
      · exact ⟨0, by simpa using hp, hbit⟩
      · exact ⟨i + 1, hi, by rwa [Nat.add_right_comm] at hbit⟩
    · rintro ⟨_ | i, hi, hbit⟩
      · exact .inl ⟨by simpa using hi, hbit⟩
      · exact .inr ⟨i, hi, by rwa [Nat.add_right_comm]⟩

theorem pwire_getElem? {j : Nat} (hj : j < 176) : params.pwire[j]? = some (pwire j) := by
  rw [pwire, List.getD_eq_getElem _ _ hj, List.getElem?_eq_getElem hj]

/-- Settles O8: only bit `j` is wired to place `P(j)`. -/
theorem pLayerMovesEachBit : Obligations.PLayerMovesEachBit := by
  intro S j hj
  have hlt : pwire j < 176 := by rw [pwire_eq hj]; omega
  rw [Bool.eq_iff_iff, pLayer, getLsbD_pBits S 0 _ hlt]
  constructor
  · rintro ⟨i, hi, hbit⟩
    have hi' : i < 176 := (List.getElem?_eq_some_iff.1 hi).1
    rw [pwire_getElem? hi', Option.some_inj] at hi
    rwa [Nat.zero_add, pwire_inj hi' hj hi] at hbit
  · exact fun hbit => ⟨j, pwire_getElem? hj, by rwa [Nat.zero_add]⟩

theorem pLayer_injective : Function.Injective pLayer := by
  intro A B h
  refine BitVec.eq_of_getLsbD_eq fun j hj => ?_
  rw [← pLayerMovesEachBit A j hj, h, pLayerMovesEachBit B j hj]

/-! ## Round constants -/

/-- Bit `i` of the reversed counter: from 169 on, counter bit `175 - i`. -/
theorem getLsbD_retnuoCl (lc : BitVec 7) {i : Nat} (hi : i < 176) :
    (retnuoCl lc).getLsbD i = (decide (169 ≤ i) && lc.getLsbD (175 - i)) := by
  rw [retnuoCl, show params.n - params.lfsrW = 169 from rfl, BitVec.getLsbD_shiftLeft, BitVec.getLsbD_setWidth,
    BitVec.getLsbD_reverse, BitVec.getMsbD_eq_getLsbD]
  by_cases hhigh : 169 ≤ i
  · have hbit : 7 - 1 - (i - 169) = 175 - i := by omega
    simp [hi, hhigh, hbit, show ¬i < 169 by omega, show i - 169 < 7 by omega, show i - 169 < 176 by omega]
  · simp [hhigh, show i < 169 by omega]

/-- Settles O9. -/
theorem addRcTouchesTwoFields : Obligations.AddRcTouchesTwoFields := by
  intro S lc i hi
  rw [addRC, BitVec.getLsbD_xor, BitVec.getLsbD_xor, BitVec.getLsbD_setWidth, getLsbD_retnuoCl lc hi]
  by_cases hlow : i < 7
  · simp [hi, hlow, show ¬169 ≤ i by omega]
  · simp only [hlow, if_false, BitVec.getLsbD_of_ge lc i (by omega), Bool.and_false, Bool.xor_false]
    by_cases hhigh : 169 ≤ i <;> simp [hhigh]

theorem addRC_injective (lc : BitVec 7) : Function.Injective (addRC · lc) := by
  intro A B h
  simpa [addRC] using h

theorem lcAt_eq_iterate (i : Nat) : lcAt i = lfsrNext^[i] 0x45 := by
  induction i with
  | zero => rfl
  | succ i ih => rw [lcAt, ih, Function.iterate_succ_apply']

theorem lfsrNext_ne_zero : ∀ {lc : BitVec 7}, lc ≠ 0 → lfsrNext lc ≠ 0 := by decide

theorem lcAt_ne_zero (i : Nat) : lcAt i ≠ 0 := by
  induction i with
  | zero => decide
  | succ i ih => exact lfsrNext_ne_zero ih

theorem lcAt_period : lcAt 127 = 0x45 := by decide +kernel

/-- 127 is a period and is prime, and 1 is no period. -/
theorem minimalPeriod_lfsrNext : Function.minimalPeriod lfsrNext 0x45 = 127 :=
  have : Fact (Nat.Prime 127) := ⟨by norm_num⟩
  Function.minimalPeriod_eq_prime ((lcAt_eq_iterate 127).symm.trans lcAt_period) (by unfold Function.IsFixedPt; decide)

theorem lcAt_injOn : Set.InjOn lcAt (Set.Iio 127) := by
  rw [← minimalPeriod_lfsrNext, funext lcAt_eq_iterate]
  exact Function.iterate_injOn_Iio_minimalPeriod

/-- Settles O10: counters repeat only after the least period, and that is 127. -/
theorem roundCountersAreDistinct : Obligations.RoundCountersAreDistinct := by
  refine ⟨rfl, List.nodup_range.map_on fun i hi j hj h => ?_, fun i _ => lcAt_ne_zero i, lcAt_period, fun i _ => ?_⟩
  · rw [List.mem_range] at hi hj
    exact lcAt_injOn (Set.mem_Iio.2 (by omega)) (Set.mem_Iio.2 (by omega)) h
  · simp [lcAt, lfsrNext]

/-! ## Round and permutation -/

theorem round_injective (lc : BitVec 7) : Function.Injective fun S => (round S lc).1 :=
  pLayer_injective.comp (sBoxLayer_injective.comp (addRC_injective lc))

/-- The counters of a chain of rounds do not depend on the state, so equal results come from equal states. -/
theorem rounds_injective (lc : BitVec 7) (k : Nat) : Function.Injective fun S => (rounds S lc k).1 := by
  induction k generalizing lc with
  | zero => exact Function.injective_id
  | succ k ih => exact (ih (lfsrNext lc)).comp (round_injective lc)

/-- Settles O11: there are finitely many states, so injectivity is enough. -/
theorem permuteIsABijection : Obligations.PermuteIsABijection :=
  Finite.injective_iff_bijective.1 (rounds_injective _ _)

end Sys2Proof.Machine
end

section
/-!
The block formatter and domain separation (41_padding). Joined, the blocks of a padded message are its padded bytes, and
those hold the message before the last nonzero byte; so padding is injective. The first pair that carries the text
constant ends the AAD phase; so the pair sequence of AAD and text holds each of them.
-/

namespace Sys2Proof.Machine

/-! ## Blocks -/

theorem length_drop_rb {X : List Byte} {n : Nat} (h : X.length = (n + 1) * rb) : (X.drop rb).length = n * rb := by
  rw [List.length_drop, h, Nat.succ_mul, Nat.add_sub_cancel]

theorem flatten_blocksOf {X : List Byte} {n : Nat} (h : X.length = n * rb) : (blocksOf X n).flatten = X := by
  induction n generalizing X with
  | zero =>
    rw [Nat.zero_mul, List.length_eq_zero_iff] at h
    rw [h, blocksOf, List.flatten_nil]
  | succ n ih =>
    rw [blocksOf, List.flatten_cons, ih (length_drop_rb h), List.take_append_drop]

/-- Blocks cut from bytes that fill them have `RB` bytes each (41_padding R150). -/
theorem length_of_mem_blocksOf {X : List Byte} {n : Nat} (h : X.length = n * rb) {blk : Block}
    (hmem : blk ∈ blocksOf X n) : blk.length = rb := by
  induction n generalizing X with
  | zero => simp [blocksOf] at hmem
  | succ n ih =>
    obtain rfl | hmem := List.mem_cons.1 hmem
    · rw [List.length_take, h, Nat.succ_mul]
      exact Nat.min_eq_left (Nat.le_add_left _ _)
    · exact ih (length_drop_rb h) hmem

/-! ## Padding -/

theorem flatten_pad (M : List Byte) : (pad M).flatten = padBytes M := flatten_blocksOf (length_padBytes M)

/-- The zero bytes of the padding: one where the message has an even length, none where it is odd. -/
theorem padZeros_eq (len : Nat) : blockCount len * rb - len - 1 = 1 - len % 2 := by
  rw [blockCount, rb_eq]
  omega

/-- Settles O12: the padded bytes fill the blocks, so the blocks are full and joined give those bytes. -/
theorem padFillsBlocks : Obligations.PadFillsBlocks := by
  intro M
  refine ⟨length_pad M, fun _ => length_of_mem_blocksOf (length_padBytes M), ?_⟩
  rw [flatten_pad, padBytes, padZeros_eq]

theorem rdropWhile_append_replicate {α : Type} {p : α → Bool} {a : α} (ha : p a) (l : List α) (n : Nat) :
    (l ++ List.replicate n a).rdropWhile p = l.rdropWhile p := by
  induction n with
  | zero => simp
  | succ n ih => rw [List.replicate_succ', ← List.append_assoc, List.rdropWhile_concat_pos _ _ _ ha, ih]

/-- Without its trailing zero bytes a padded message ends in the padding byte. -/
theorem rdropWhile_padBytes (M : List Byte) : (padBytes M).rdropWhile (· == 0) = M ++ [params.padByte] := by
  rw [padBytes, rdropWhile_append_replicate (by decide), List.rdropWhile_concat_neg _ _ _ (by decide)]

theorem padBytes_injective : Function.Injective padBytes := by
  intro M N h
  have hstrip := congrArg (List.rdropWhile (· == 0)) h
  rw [rdropWhile_padBytes, rdropWhile_padBytes] at hstrip
  exact List.append_cancel_right hstrip

/-- Settles O13: the joined blocks give back the padded bytes, and those the message. -/
theorem padIsInjective : Obligations.PadIsInjective := by
  intro M N h
  exact padBytes_injective (by rw [← flatten_pad M, h, flatten_pad N])

/-! ## Phase constants -/

theorem getElem?_withConstant {ds : Byte} {blks : List Block} {b : Nat} {blk : Block} (h : blks[b]? = some blk) :
    (withConstant ds blks)[b]? = some (blk, if b = 0 then ds else 0) := by
  cases blks with
  | nil => simp at h
  | cons first rest => cases b <;> simpa [withConstant] using h

/-- Settles O14. -/
theorem phaseConstantOnFirstBlockOnly : Obligations.PhaseConstantOnFirstBlockOnly :=
  fun _ _ _ _ h => getElem?_withConstant h

theorem map_fst_withConstant (ds : Byte) (blks : List Block) : (withConstant ds blks).map Prod.fst = blks := by
  cases blks <;> simp [withConstant, Function.comp_def]

theorem phasePairs_injective (ds : Byte) : Function.Injective (phasePairs · ds) := by
  intro M N h
  have hpad := congrArg (List.map Prod.fst) h
  simp only [phasePairs, map_fst_withConstant] at hpad
  exact padIsInjective hpad

/-- A phase is not empty, and its first pair carries its constant. -/
theorem phasePairs_eq_cons (M : List Byte) (ds : Byte) : ∃ blk rest, phasePairs M ds = (blk, ds) :: rest :=
  ⟨_, _, rfl⟩

theorem constant_of_mem_phasePairs {M : List Byte} {ds : Byte} {p : Block × Byte} (h : p ∈ phasePairs M ds) :
    p.2 = ds ∨ p.2 = 0 := by
  obtain rfl | hrest := List.mem_cons.1 h
  · exact .inl rfl
  · obtain ⟨_, _, rfl⟩ := List.mem_map.1 hrest
    exact .inr rfl

/-- The AAD phase is what stands before the first text constant. -/
theorem takeWhile_aad_text (A P : List Byte) :
    (phasePairs A params.dsAad ++ phasePairs P params.dsText).takeWhile (·.2 != params.dsText) =
      phasePairs A params.dsAad := by
  have haad : ∀ p ∈ phasePairs A params.dsAad, (p.2 != params.dsText) = true := by
    intro p hp
    obtain hc | hc := constant_of_mem_phasePairs hp <;> rw [hc] <;> decide
  obtain ⟨blk, rest, htext⟩ := phasePairs_eq_cons P params.dsText
  rw [List.takeWhile_append_of_pos haad, htext, List.takeWhile_cons_of_neg (by simp), List.append_nil]

/-- Settles O15: the first text constant stands at the same place in both sequences, so both phases are equal. -/
theorem phasesSeparateRoles : Obligations.PhasesSeparateRoles := by
  intro A A' P P' h
  have haad := congrArg (List.takeWhile (·.2 != params.dsText)) h
  rw [takeWhile_aad_text, takeWhile_aad_text] at haad
  rw [haad] at h
  exact ⟨phasePairs_injective _ haad, phasePairs_injective _ (List.append_cancel_left h)⟩

end Sys2Proof.Machine
end

section
/-!
The sponge (42_sponge). XORing a byte into the state reaches that byte only; a squeeze is its first read and the squeeze
of the permuted state; and padding a text of at least one block pads what follows its first block, so encryption and
decryption run through the text in the same steps.
-/

namespace Sys2Proof.Machine

/-! ## XOR into the state (42_sponge R171) -/

theorem stateByte_xorByte (S : Sponge) {i j : Nat} (v : Byte) (hj : j < 22) :
    stateByte (xorByte S i v) j = if j = i then stateByte S j ^^^ v else stateByte S j := by
  refine BitVec.eq_of_getLsbD_eq fun b hb => ?_
  have hbit : 8 * j + b < 176 := by omega
  have hxor : (stateByte (xorByte S i v) j).getLsbD b =
      (S.getLsbD (8 * j + b) ^^ (!decide (8 * j + b < 8 * i) && v.getLsbD (8 * j + b - 8 * i))) := by
    simp [stateByte, xorByte, hb, hbit]
  rw [hxor]
  obtain hlt | rfl | hgt := lt_trichotomy j i
  · simp [stateByte, hb, show 8 * j + b < 8 * i by omega, show j ≠ i by omega]
  · simp [stateByte, hb]
  · simp [stateByte, hb, show j ≠ i by omega, BitVec.getLsbD_of_ge v (8 * j + b - 8 * i) (by omega)]

theorem stateByte_xorBytesFrom (S : Sponge) (blk : Block) (k : Nat) {j : Nat} (hj : j < 22) :
    stateByte (xorBytesFrom S blk k) j = if j < k then stateByte S j ^^^ blk.getD j 0 else stateByte S j := by
  induction k with
  | zero => simp [xorBytesFrom]
  | succ k ih =>
    rw [xorBytesFrom, stateByte_xorByte _ _ hj, ih]
    obtain hlt | rfl | hgt := lt_trichotomy j k
    · simp [hlt, show j ≠ k by omega, show j < k + 1 by omega]
    · simp
    · simp [show ¬j < k by omega, show j ≠ k by omega, show ¬j < k + 1 by omega]

/-- Settles O16: a block is XORed in byte by byte, and the rate has two bytes. -/
theorem xorBlockLeavesCapacity : Obligations.XorBlockLeavesCapacity :=
  fun S blk _ hj => stateByte_xorBytesFrom S blk rb hj

/-! ## Absorbing (42_sponge R172, R173) -/

@[simp] theorem xorByte_zero (S : Sponge) (j : Nat) : xorByte S j 0 = S := by simp [xorByte]

/-- A block that carries no constant is absorbed plainly. -/
theorem absorbPair_zero (S : Sponge) (blk : Block) : absorbPair S (blk, 0) = absorb S blk := by
  rw [absorbPair, inject, xorByte_zero, absorb]

theorem foldl_absorbPair_zero (S : Sponge) (blks : List Block) :
    (blks.map fun b => (b, (0 : Byte))).foldl absorbPair S = blks.foldl absorb S := by
  simp only [List.foldl_map, absorbPair_zero]

/-- Settles O17: only the first block carries a constant other than 0. -/
theorem absorbPhaseFoldsBlocks : Obligations.AbsorbPhaseFoldsBlocks :=
  fun _ M _ => foldl_absorbPair_zero _ (pad M).tail

/-! ## Squeezing (42_sponge R174, R175) -/

theorem getD_rate (S : Sponge) {i : Nat} (hi : i < 2) : (rate S).getD i 0 = stateByte S i := by
  interval_cases i <;> rfl

theorem getD_take_rate (S : Sponge) {n i : Nat} (hn : i < n) (hi : i < 2) :
    ((rate S).take n).getD i 0 = stateByte S i := by
  rw [List.getD_eq_getElem?_getD, List.getElem?_take_of_lt hn, ← List.getD_eq_getElem?_getD, getD_rate S hi]

theorem squeezeLoop_of_le (S : Sponge) {n : Nat} (fuel : Nat) (h : n ≤ 2) :
    squeezeLoop S n fuel = ((rate S).take n, S) := by
  cases fuel with
  | zero => rfl
  | succ fuel => rw [squeezeLoop, if_pos (show n ≤ rb from h)]

theorem squeezeLoop_of_lt (S : Sponge) {n : Nat} (fuel : Nat) (h : 2 < n) :
    squeezeLoop S n (fuel + 1) =
      (rate S ++ (squeezeLoop (permute S) (n - 2) fuel).1, (squeezeLoop (permute S) (n - 2) fuel).2) := by
  rw [squeezeLoop, if_neg (show ¬n ≤ rb from Nat.not_le.2 h)]
  rfl

theorem squeezeLoop_state (S : Sponge) {n fuel : Nat} (h : n ≤ 2 * (fuel + 1)) :
    (squeezeLoop S n fuel).2 = permute^[(n - 1) / 2] S := by
  induction fuel generalizing S n with
  | zero => rw [squeezeLoop_of_le S 0 h, show (n - 1) / 2 = 0 by omega, Function.iterate_zero_apply]
  | succ fuel ih =>
    obtain hle | hlt := le_or_gt n 2
    · rw [squeezeLoop_of_le S _ hle, show (n - 1) / 2 = 0 by omega, Function.iterate_zero_apply]
    · rw [squeezeLoop_of_lt S _ hlt, ih _ (by omega), show (n - 1) / 2 = (n - 2 - 1) / 2 + 1 by omega,
        Function.iterate_succ_apply]

/-- By induction on the turns: the first two bytes are the rate, and the rest is the squeeze of the permuted state. -/
theorem getD_squeezeLoop (S : Sponge) {n fuel i : Nat} (h : n ≤ 2 * (fuel + 1)) (hi : i < n) :
    (squeezeLoop S n fuel).1.getD i 0 = stateByte (permute^[i / 2] S) (i % 2) := by
  have hfirst (T : Sponge) {j : Nat} (hj : j < 2) : stateByte (permute^[j / 2] T) (j % 2) = stateByte T j := by
    rw [Nat.div_eq_of_lt hj, Nat.mod_eq_of_lt hj, Function.iterate_zero_apply]
  induction fuel generalizing S n i with
  | zero =>
    have hi2 : i < 2 := by omega
    rw [squeezeLoop_of_le S 0 h, getD_take_rate S hi hi2, hfirst S hi2]
  | succ fuel ih =>
    obtain hle | hlt := le_or_gt n 2
    · have hi2 : i < 2 := by omega
      rw [squeezeLoop_of_le S _ hle, getD_take_rate S hi hi2, hfirst S hi2]
    · rw [squeezeLoop_of_lt S _ hlt]
      obtain hi2 | hge := Nat.lt_or_ge i 2
      · rw [List.getD_append _ _ _ _ (by rwa [length_rate]), getD_rate S hi2, hfirst S hi2]
      · have hdiv : i / 2 = (i - 2) / 2 + 1 := by omega
        have hmod : i % 2 = (i - 2) % 2 := by omega
        rw [List.getD_append_right _ _ _ _ (by rwa [length_rate]), length_rate, ih _ (by omega) (by omega), hdiv, hmod,
          Function.iterate_succ_apply]

/-- Settles O18: `n` turns are more than enough to read `n` bytes. -/
theorem squeezeReadsSuccessiveRates : Obligations.SqueezeReadsSuccessiveRates :=
  fun S n => ⟨length_squeeze S n, fun _ hi => getD_squeezeLoop S (by omega) hi, squeezeLoop_state S (by omega)⟩

/-! ## Padding block by block (41_padding R151) -/

theorem blockCount_of_lt {len : Nat} (h : len < 2) : blockCount len = 1 := by
  rw [blockCount, rb_eq, Nat.div_eq_of_lt h]

theorem blockCount_of_le {P : List Byte} (h : 2 ≤ P.length) :
    blockCount P.length = blockCount (P.drop 2).length + 1 := by
  rw [blockCount, blockCount, List.length_drop, rb_eq]
  omega

theorem padBytes_of_le {P : List Byte} (h : 2 ≤ P.length) : padBytes P = P.take 2 ++ padBytes (P.drop 2) := by
  have hparity : P.length % 2 = (P.drop 2).length % 2 := by
    rw [List.length_drop]
    omega
  rw [padBytes, padBytes, padZeros_eq, padZeros_eq, hparity, ← List.append_assoc, ← List.append_assoc,
    List.take_append_drop]

/-- A text shorter than a block is padded to one block, the one that decryption absorbs last (42_sponge R177). -/
theorem pad_of_lt {P : List Byte} (h : P.length < 2) : pad P = [recoveredBlock P true] := by
  have hlen : (padBytes P).length ≤ rb := by rw [length_padBytes, blockCount_of_lt h, Nat.one_mul]
  rw [pad, blockCount_of_lt h, blocksOf, blocksOf, List.take_of_length_le hlen, padBytes, blockCount_of_lt h,
    recoveredBlock, if_pos rfl, Nat.one_mul]

theorem pad_of_le {P : List Byte} (h : 2 ≤ P.length) : pad P = P.take 2 :: pad (P.drop 2) := by
  have hlen : (P.take 2).length = rb := List.length_take_of_le h
  rw [pad, blockCount_of_le h, blocksOf, padBytes_of_le h, List.take_left' hlen, List.drop_left' hlen, pad]

theorem phasePairs_of_lt {P : List Byte} (h : P.length < 2) (c : Byte) :
    phasePairs P c = [(recoveredBlock P true, c)] := by
  rw [phasePairs, pad_of_lt h, withConstant, List.map_nil]

/-- What follows the first block of a phase is a phase with the constant 0. -/
theorem phasePairs_of_le {P : List Byte} (h : 2 ≤ P.length) (c : Byte) :
    phasePairs P c = (P.take 2, c) :: phasePairs (P.drop 2) 0 := by
  rw [phasePairs, pad_of_le h]
  rfl

/-! ## The text phase (42_sponge R176, R177) -/

theorem length_xorStrings {a b : List Byte} (h : a.length ≤ b.length) : (xorStrings a b).length = a.length := by
  rw [xorStrings, List.length_zipWith, Nat.min_eq_left h]

theorem xorStrings_cancel {a b : List Byte} (h : a.length ≤ b.length) : xorStrings (xorStrings a b) b = a := by
  refine List.ext_getElem ?_ fun i _ _ => ?_
  · rw [length_xorStrings (by rwa [length_xorStrings h]), length_xorStrings h]
  · simp [xorStrings]

/-- By induction on the full blocks of the text: both runs read the same rate, so decryption recovers the block that
encryption absorbed, and absorbs it with the same constant. -/
theorem decryptBlocks_encryptBlocks (S : Sponge) (P : List Byte) (c : Byte) :
    decryptBlocks S (encryptBlocks S P (phasePairs P c)).1 c (blockCount P.length) =
      (P, (encryptBlocks S P (phasePairs P c)).2) := by
  induction hblocks : P.length / 2 generalizing S P c with
  | zero =>
    have hlt : P.length < 2 := by omega
    have hrate : P.length ≤ (rate S).length := by rw [length_rate]; omega
    have htake : P.take rb = P := List.take_of_length_le hlt.le
    have hcipher : (xorStrings P (rate S)).take rb = xorStrings P (rate S) :=
      List.take_of_length_le (by rw [length_xorStrings hrate]; exact hlt.le)
    simp only [phasePairs_of_lt hlt, blockCount_of_lt hlt, encryptBlocks, decryptBlocks, List.append_nil, htake,
      hcipher, xorStrings_cancel hrate, beq_self_eq_true]
  | succ k ih =>
    have hle : 2 ≤ P.length := by omega
    have hblock : (P.take 2).length = 2 := List.length_take_of_le hle
    have hrate : (P.take 2).length ≤ (rate S).length := by rw [length_rate, hblock]
    have hcipher : (xorStrings (P.take 2) (rate S)).length = 2 := by rw [length_xorStrings hrate, hblock]
    have hlast : (blockCount (P.drop 2).length == 0) = false := rfl
    simp only [phasePairs_of_le hle, blockCount_of_le hle, encryptBlocks, decryptBlocks, rb_eq, List.take_left' hcipher,
      List.drop_left' hcipher, xorStrings_cancel hrate, hlast, recoveredBlock, Bool.false_eq_true, if_false,
      ih _ (P.drop 2) 0 (by rw [List.length_drop]; omega), List.take_append_drop]

/-- Settles O19: the ciphertext is as long as the plaintext, so decryption runs as many blocks. -/
theorem decryptTextInvertsEncryptText : Obligations.DecryptTextInvertsEncryptText := by
  intro S P
  rw [decryptText, length_encryptText]
  exact decryptBlocks_encryptBlocks S P _

end Sys2Proof.Machine
end

section
/-!
The AEAD functions (43_aead R201 to R216). Encryption XORs each byte with the rate before its block; the tag comparison
decides whether two 16-byte tags are equal; and UNWRAP recomputes the tag that WRAP made, so that tag alone passes.
-/

namespace Sys2Proof.Machine

/-! ## The keystream (43_aead R202) -/

theorem getD_xorStrings {a b : List Byte} {i : Nat} (ha : i < a.length) (hb : i < b.length) :
    (xorStrings a b).getD i 0 = a.getD i 0 ^^^ b.getD i 0 := by
  have hx : i < (xorStrings a b).length := by rw [xorStrings, List.length_zipWith]; omega
  rw [List.getD_eq_getElem _ _ hx, List.getD_eq_getElem _ _ ha, List.getD_eq_getElem _ _ hb]
  exact List.getElem_zipWith

theorem getD_take {l : List Byte} {n i : Nat} (hi : i < n) : (l.take n).getD i 0 = l.getD i 0 := by
  rw [List.getD_eq_getElem?_getD, List.getElem?_take_of_lt hi, ← List.getD_eq_getElem?_getD]

/-- By induction on the blocks: the first two bytes meet the rate of the state itself, and the rest is the encryption of
what follows, from the state after one block. -/
theorem getD_encryptBlocks (S : Sponge) (P : List Byte) (ps : List (Block × Byte)) (h : P.length ≤ 2 * ps.length)
    {i : Nat} (hi : i < P.length) :
    (encryptBlocks S P ps).1.getD i 0 =
      P.getD i 0 ^^^ stateByte ((ps.take (i / 2)).foldl absorbPair S) (i % 2) := by
  induction ps generalizing S P i with
  | nil =>
    rw [List.length_nil] at h
    omega
  | cons p ps ih =>
    rw [List.length_cons] at h
    have hblock : (xorStrings (P.take 2) (rate S)).length = min 2 P.length := by
      rw [length_xorStrings (by simp), List.length_take]
    rw [encryptBlocks, rb_eq]
    obtain hlow | hhigh := Nat.lt_or_ge i 2
    · rw [List.getD_append _ _ _ _ (by omega), getD_xorStrings (by rw [List.length_take]; omega) (by simpa using hlow),
        getD_take hlow, getD_rate S hlow, Nat.div_eq_of_lt hlow, Nat.mod_eq_of_lt hlow, List.take_zero, List.foldl_nil]
    · obtain ⟨k, rfl⟩ : ∃ k, i = k + 2 := ⟨i - 2, by omega⟩
      rw [List.getD_append_right _ _ _ _ (by omega), hblock, Nat.min_eq_left (by omega), Nat.add_sub_cancel,
        ih _ _ (by rw [List.length_drop]; omega) (by rw [List.length_drop]; omega), Nat.add_div_right k (by decide),
        Nat.add_mod_right, List.take_succ_cons, List.foldl_cons]
      simp [List.getD_eq_getElem?_getD, Nat.add_comm 2 k]

/-- Settles O20. -/
theorem ciphertextIsPlaintextXorKeystream : Obligations.CiphertextIsPlaintextXorKeystream := by
  intro K A P
  refine ⟨length_wrapFn K A P, length_wrapFn_tag K A P, fun i hi => ?_⟩
  exact getD_encryptBlocks _ _ _ (by rw [length_phasePairs, blockCount, rb_eq]; omega) hi

/-! ## The tag comparison (43_aead R213) -/

/-- The accumulator stays 0 exactly while every byte compared is equal. -/
theorem tagDiff_eq_zero_iff (T Tin : List Byte) (n : Nat) :
    tagDiff T Tin n = 0 ↔ ∀ i < n, T.getD i 0 = Tin.getD i 0 := by
  induction n with
  | zero => simp [tagDiff]
  | succ n ih =>
    have hor : tagDiff T Tin (n + 1) = 0 ↔ tagDiff T Tin n = 0 ∧ T.getD n 0 = Tin.getD n 0 :=
      BitVec.or_eq_zero_iff.trans (and_congr_right fun _ => BitVec.xor_eq_zero_iff)
    rw [hor, ih, Nat.forall_lt_succ_right]

/-- Settles O22: 16 bytes are all the bytes of both tags. -/
theorem tagComparisonCoversAllBytes : Obligations.TagComparisonCoversAllBytes := by
  intro T Tin hT hTin
  rw [ctEqual, beq_iff_eq, tagDiff_eq_zero_iff]
  refine ⟨fun h => List.ext_getElem (hT.trans hTin.symm) fun i hi hi' => ?_, fun h i _ => by rw [h]⟩
  have hbyte := h i (lt_of_lt_of_eq hi hT)
  rwa [List.getD_eq_getElem _ _ hi, List.getD_eq_getElem _ _ hi'] at hbyte

/-! ## UNWRAP (43_aead R211 to R216) -/

/-- UNWRAP decides on equality with the tag it recomputes. -/
theorem unwrapFn_eq (K A C : List Byte) {Tin : List Byte} (hTin : Tin.length = 16) :
    unwrapFn K A C Tin =
      if tagOf (decryptText (absorbPhase (initSponge K) A params.dsAad) C).2 = Tin then
        ((decryptText (absorbPhase (initSponge K) A params.dsAad) C).1, .success)
      else (List.replicate C.length 0, .badTag) := by
  simp only [unwrapFn, tagComparisonCoversAllBytes _ _ (length_tagOf _) hTin]

/-- On WRAP's ciphertext UNWRAP recovers the plaintext and recomputes WRAP's tag. -/
theorem unwrapFn_wrapFn (K A P : List Byte) {Tin : List Byte} (hTin : Tin.length = 16) :
    unwrapFn K A (wrapFn K A P).1 Tin =
      if (wrapFn K A P).2 = Tin then (P, .success) else (List.replicate P.length 0, .badTag) := by
  rw [unwrapFn_eq K A _ hTin, length_wrapFn, wrapFn, decryptTextInvertsEncryptText _ P]

/-- Settles O21. -/
theorem unwrapInvertsWrap : Obligations.UnwrapInvertsWrap :=
  fun K A P => (unwrapFn_wrapFn K A P (length_wrapFn_tag K A P)).trans (if_pos rfl)

/-- Settles O23. -/
theorem forgedTagIsRejected : Obligations.ForgedTagIsRejected :=
  fun K A P _ hTin hne => (unwrapFn_wrapFn K A P hTin).trans (if_neg hne.symm)

end Sys2Proof.Machine
end

section
/-!
The completion of a command (43_aead R190 to R222). The validation checks decide between no output and the command's own
outputs, and the completion record stands over either; read by command word this is the completion step of R196.
-/

namespace Sys2Proof.Machine

/-! ## Validation (43_aead R192 to R195) -/

theorem validateKeyed_eq_ok {usesAad : Bool} {s : State} (h : OperandsValid usesAad s) :
    validateKeyed usesAad 16 s = .ok := by
  obtain ⟨hmask, haad, hmsg⟩ := h
  exact validateKeyed_ok.2 ⟨hmask, haad, hmsg, rfl⟩

theorem validateKeyed_eq_fail {usesAad : Bool} {s : State} (tlen : Byte)
    (h : s.keymask ≠ 0xF ∨ (usesAad = true ∧ 256 < s.aadLen.toNat) ∨ 1024 < s.msgLen.toNat) :
    validateKeyed usesAad tlen s = .fail := by
  rw [validateKeyed]
  by_cases hmask : s.keymask ≠ 0xF
  · rw [if_pos hmask]
  by_cases haad : usesAad = true ∧ params.aadMax < s.aadLen.toNat
  · rw [if_neg hmask, if_pos haad]
  · rw [if_neg hmask, if_neg haad, if_pos ((h.resolve_left hmask).resolve_left haad)]

/-- TLEN is checked last, on operands that are otherwise valid. -/
theorem validateKeyed_eq_badHashBitLen {usesAad : Bool} {s : State} {tlen : Byte} (h : OperandsValid usesAad s)
    (htlen : tlen ≠ 16) : validateKeyed usesAad tlen s = .badHashBitLen := by
  obtain ⟨hmask, haad, hmsg⟩ := h
  have htlen' : tlen.toNat ≠ params.tlenFix := fun hn => htlen (BitVec.eq_of_toNat_eq hn)
  rw [validateKeyed, if_neg (not_not.2 hmask), if_neg fun hc => absurd (haad hc.1) (Nat.not_le.2 hc.2),
    if_neg (Nat.not_lt.2 hmsg), if_pos htlen']

/-! ## Commands without output (43_aead R198) -/

theorem completes_without_output {i : Instr} {s : State} {code : ResultCode}
    (h : exec i s = .next (complete code s)) : ∃ t, exec i s = .next t ∧ Completed code t ∧ NoOutput s t :=
  ⟨_, h, complete_completed code s, complete_noOutput code s⟩

theorem exec_wrap_eq (tlen : Byte) (s : State) :
    exec (.wrap tlen) s = .next (afterValidation (validateKeyed true tlen s) s (wrapDone s)) := rfl

theorem exec_unwrap_eq (tlen : Byte) (s : State) :
    exec (.unwrap tlen) s = .next (afterValidation (validateKeyed true tlen s) s (unwrapDone s)) := rfl

theorem exec_mac_eq (tlen : Byte) (s : State) :
    exec (.mac tlen) s = .next (afterValidation (validateKeyed false tlen s) s (macDone s)) := rfl

/-- Settles O27. -/
theorem reservedCommandsFail : Obligations.ReservedCommandsFail := by
  intro tlen op rsv0 rsv1 s i hi
  refine completes_without_output ?_
  simp only [List.mem_cons, List.not_mem_nil, or_false] at hi
  obtain rfl | rfl | rfl | rfl | rfl | rfl | rfl | rfl | rfl | rfl | rfl | rfl := hi <;> rfl

/-- A command whose meaning is `afterValidation` of the keyed checks completes as their first failure says. -/
theorem failed_check_decides {i : Instr} {usesAad : Bool} {tlen : Byte} {s onOk : State}
    (h : exec i s = .next (afterValidation (validateKeyed usesAad tlen s) s onOk)) :
    (s.keymask ≠ 0xF ∨ (usesAad = true ∧ 256 < s.aadLen.toNat) ∨ 1024 < s.msgLen.toNat →
      ∃ t, exec i s = .next t ∧ Completed .fail t ∧ NoOutput s t) ∧
    (OperandsValid usesAad s → tlen ≠ 16 →
      ∃ t, exec i s = .next t ∧ Completed .badHashBitLen t ∧ NoOutput s t) := by
  refine ⟨fun hbad => completes_without_output ?_, fun hok htlen => completes_without_output ?_⟩
  · rw [h, validateKeyed_eq_fail tlen hbad, afterValidation]
  · rw [h, validateKeyed_eq_badHashBitLen hok htlen, afterValidation]

/-- Settles O31. -/
theorem failedChecksDecideTheCode : Obligations.FailedChecksDecideTheCode := by
  intro tlen s
  obtain ⟨macFail, macBadLen⟩ := failed_check_decides (exec_mac_eq tlen s)
  refine ⟨fun i hi => ?_, fun h => macFail (h.imp_right .inr), macBadLen⟩
  simp only [List.mem_cons, List.not_mem_nil, or_false] at hi
  obtain rfl | rfl := hi
  · simpa only [true_and] using failed_check_decides (exec_wrap_eq tlen s)
  · simpa only [true_and] using failed_check_decides (exec_unwrap_eq tlen s)

/-! ## Outputs in the registers and the buffer -/

theorem wordOfBytes_eq_concatLe (b0 b1 b2 b3 : Byte) : wordOfBytes b0 b1 b2 b3 = concatLe [b0, b1, b2, b3] := by
  simp [wordOfBytes, concatLe, BitVec.shiftLeft_or_distrib, ← BitVec.shiftLeft_add, BitVec.or_assoc]

theorem wordBytes_wordOfBytes (b0 b1 b2 b3 : Byte) : wordBytes (wordOfBytes b0 b1 b2 b3) = [b0, b1, b2, b3] := by
  have hbyte : ∀ k < 4, (wordOfBytes b0 b1 b2 b3).extractLsb' (8 * k) 8 = [b0, b1, b2, b3].getD k 0 := fun k hk => by
    rw [wordOfBytes_eq_concatLe, extractLsb'_concatLe _ hk]
  exact congr (congrArg List.cons (hbyte 0 (by decide))) <| congr (congrArg List.cons (hbyte 1 (by decide))) <|
    congr (congrArg List.cons (hbyte 2 (by decide))) <| congr (congrArg List.cons (hbyte 3 (by decide))) rfl

/-- A quad holds the first 16 bytes of a string, with zero bytes past the string's end. -/
theorem Quad.bytes_ofBytes (bs : List Byte) : (Quad.ofBytes bs).bytes = (List.range 16).map (bs.getD · 0) := by
  simp only [Quad.ofBytes, Quad.bytes, wordBytes_wordOfBytes]
  rfl

theorem Quad.length_bytes (q : Quad) : q.bytes.length = 16 := rfl

theorem length_tagOperand (s : State) : (tagOperand s).length = 16 := Quad.length_bytes s.tag

theorem Quad.bytes_ofBytes_of_length {bs : List Byte} (h : bs.length = 16) : (Quad.ofBytes bs).bytes = bs := by
  rw [Quad.bytes_ofBytes]
  refine List.ext_getElem (by simp [h]) fun i _ hi => ?_
  rw [List.getElem_map, List.getElem_range, List.getD_eq_getElem _ _ hi]

/-- MSG_LEN bytes written to the MSG buffer stand there, and every other byte is as before. -/
theorem msgReplaced_writeMsg {s : State} {bs : List Byte} (hwf : s.mem.wf = true) (hmax : s.msgLen.toNat ≤ 1024)
    (hlen : bs.length = s.msgLen.toNat) : MsgReplaced s (s.writeMsg bs) bs := by
  intro a
  rw [writeMsg_mem, Memory.read_writeBytes hwf fun i hi => bufferOffset_msg (by omega), hlen]

/-- UNWRAP writes the recovered plaintext where TAG holds the expected tag, and zero bytes elsewhere (43_aead R214). -/
theorem unwrapDone_eq (s : State) :
    let r := decryptText (absorbPhase (initSponge (keyOperand s)) (aadOperand s) params.dsAad) (msgOperand s)
    unwrapDone s =
      if tagOf r.2 = tagOperand s then complete .success (s.writeMsg r.1)
      else complete .badTag (s.writeMsg (List.replicate s.msgLen.toNat 0)) := by
  simp only [unwrapDone, unwrapFn_eq _ _ _ (length_tagOperand s), length_msgOperand]
  split <;> rfl

/-- Settles O28. -/
theorem wrapCompletes : Obligations.WrapCompletes := by
  intro s hwf hvalid
  have hmax : s.msgLen.toNat ≤ 1024 := hvalid.2.2
  refine ⟨wrapDone s, ?_, complete_completed _ _, ?_, ?_, ⟨rfl, rfl⟩, ⟨rfl, rfl, rfl, rfl⟩⟩
  · rw [exec_wrap_eq, validateKeyed_eq_ok hvalid, afterValidation]
  · exact msgReplaced_writeMsg hwf hmax (by rw [length_wrapFn, length_msgOperand])
  · exact Quad.bytes_ofBytes_of_length (length_wrapFn_tag _ _ _)

/-- Settles O29. -/
theorem unwrapCompletes : Obligations.UnwrapCompletes := by
  intro s hwf hvalid
  have hmax : s.msgLen.toNat ≤ 1024 := hvalid.2.2
  refine ⟨unwrapDone s, ?_, rfl, ⟨rfl, rfl⟩, ⟨rfl, rfl, rfl, rfl⟩, ?_⟩
  · rw [exec_unwrap_eq, validateKeyed_eq_ok hvalid, afterValidation]
  · intro r
    rw [unwrapDone_eq]
    split
    · exact ⟨complete_completed _ _,
        msgReplaced_writeMsg hwf hmax ((length_decryptText _ _).trans (length_msgOperand s))⟩
    · exact ⟨complete_completed _ _, msgReplaced_writeMsg hwf hmax List.length_replicate⟩

/-- Settles O30. -/
theorem macCompletes : Obligations.MacCompletes := by
  intro s hvalid
  refine ⟨macDone s, ?_, complete_completed _ _, ?_, fun _ => rfl, ⟨rfl, rfl⟩, ⟨rfl, rfl, rfl, rfl⟩⟩
  · rw [exec_mac_eq, validateKeyed_eq_ok hvalid, afterValidation]
  · exact Quad.bytes_ofBytes_of_length (length_macFn _ _)

/-- Settles O33: every next state is a completion record over what the command wrote. -/
theorem everyCompletionZeroizes : Obligations.EveryCompletionZeroizes := by
  intro i s t hnop hexec
  obtain ⟨tlen, hi, -⟩ | ⟨code, u, rfl, hw⟩ := exec_next_cases hexec
  · exact absurd hi (hnop tlen)
  · exact ⟨code, hw.code_ne_unknown, complete_completed code u⟩

/-! ## The completion step by command word (43_aead R195, R196) -/

theorem completeStep_eq (w : Word) (s : State) :
    completeStep w s =
      afterValidation (validate w s) s (complete (outputs (opField w) s).2 (outputs (opField w) s).1) := by
  rw [completeStep]
  cases validate w s <;> rfl

/-- Validation of a word without reserved bits, by its OP. -/
theorem validate_packWord (op : BitVec 4) (tlen : Byte) (s : State) :
    validate (packWord op 0 tlen 0) s =
      if op = 0x4 then .ok
      else if op ≠ 0x1 ∧ op ≠ 0x2 ∧ op ≠ 0x3 then .fail
      else validateKeyed (op != 0x3) tlen s := by
  simp [validate, hasReservedBits, rsv0Field_packWord, rsv1Field_packWord, opField_packWord, tlenField_packWord]

theorem validate_of_reservedBits {w : Word} (h : hasReservedBits w = true) (s : State) : validate w s = .fail :=
  if_pos h

/-- By cases on the command: validation and the outputs of its word are those of its meaning. -/
theorem exec_eq_completeStep {i : Instr} (hwf : i.wf = true) (hnop : ∀ tlen, i ≠ .nop tlen) (s : State) :
    exec i s = .next (completeStep (encodeWord i) s) := by
  rw [completeStep_eq]
  cases i with
  | nop tlen => exact absurd rfl (hnop tlen)
  | reservedBits op rsv0 tlen rsv1 =>
    have hres : hasReservedBits (packWord op rsv0 tlen rsv1) = true := by
      rw [hasReservedBits, rsv0Field_packWord, rsv1Field_packWord]
      exact hwf
    rw [encodeWord, validate_of_reservedBits hres]
    rfl
  | _ tlen =>
    rw [encodeWord, validate_packWord, opField_packWord]
    rfl

/-- Settles O32. -/
theorem execIsTheCompletionStep : Obligations.ExecIsTheCompletionStep := by
  intro w s hw
  obtain ⟨hword, hwf⟩ := encodeDecodeRoundTrip w
  have hexec := exec_eq_completeStep hwf (fun tlen h => hw (present_eq_nop_iff.2 ⟨tlen, h⟩)) s
  rwa [hword] at hexec

/-! ## Acceptance and the core's turn (43_aead R190, R196) -/

theorem outputs_accept (op : BitVec 4) (w : Word) (s : State) :
    outputs op (accept w s) = (accept w (outputs op s).1, (outputs op s).2) := by
  unfold outputs
  split_ifs <;> rfl

/-- The completion step reads nothing that acceptance writes, and its record writes all of that. -/
theorem completeStep_accept (w : Word) (s : State) : completeStep w (accept w s) = completeStep w s := by
  rw [completeStep_eq, completeStep_eq, outputs_accept, show validate w (accept w s) = validate w s from rfl]
  cases validate w s <;> rfl

/-- Settles O37. -/
theorem acceptanceIsAbsorbedByCompletion : Obligations.AcceptanceIsAbsorbedByCompletion := by
  intro w s hw
  rw [execIsTheCompletionStep w _ hw, execIsTheCompletionStep w s hw, completeStep_accept]

/-- Settles O43. -/
theorem coreTurnRunsAcceptedCommand : Obligations.CoreTurnRunsAcceptedCommand :=
  fun _ _ hrst hbusy =>
    ⟨fun ha => (step_of_agenda_core hrst ha).trans (if_pos hbusy),
      fun ha => (step_of_agenda_nil hrst ha).trans (if_pos hbusy)⟩

/-- Settles O44. -/
theorem cmdWritePresentsACommand : Obligations.CmdWritePresentsACommand := by
  intro s w rest hrst hbusy ha
  have hreg : regAt (0x010 : Offset).toNat = some .cmd := rfl
  have hport := memWrite_reg (s := { s with agenda := rest }) hreg (accessible_reg_of_idle hreg hbusy) w
  rw [writeReg, presentCommand_eq] at hport
  rw [step_write_okay hrst ha hport]
  split <;> rfl

end Sys2Proof.Machine
end

section
/-!
The phases of the reference datapath (40_permutation R131; 42_sponge R175 to R179; 43_aead R205; 70_reset R297). A run
is a number of cycles in each of which the core is busy; runs join. A permutation is a run of 90 cycles; with it each
phase that absorbs, the text phase and the reading of the tag are runs that compute what the sponge operations say.
-/

namespace Sys2Proof.Machine

/-! ## Runs of busy cycles -/

/-- After `n` cycles, in each of which the core is busy, `s` has become `t`. -/
def BusyRun (s : State) (n : Nat) (t : State) : Prop := cycles s n = t ∧ ∀ m < n, (cycles s m).busy = true

theorem cycles_add (s : State) (n m : Nat) : cycles s (n + m) = cycles (cycles s n) m := by
  induction n generalizing s with
  | zero => rw [Nat.zero_add, cycles]
  | succ n ih => rw [Nat.succ_add, cycles, cycles, ih]

theorem BusyRun.trans {s t u : State} {n m : Nat} (h : BusyRun s n t) (h' : BusyRun t m u) : BusyRun s (n + m) u := by
  obtain ⟨rfl, hbusy⟩ := h
  obtain ⟨hend, hbusy'⟩ := h'
  refine ⟨(cycles_add s n m).trans hend, fun k hk => ?_⟩
  obtain hlt | hge := Nat.lt_or_ge k n
  · exact hbusy k hlt
  · obtain ⟨d, rfl⟩ := Nat.exists_eq_add_of_le hge
    rw [cycles_add]
    exact hbusy' d (by omega)

theorem BusyRun.refl (s : State) : BusyRun s 0 s := ⟨rfl, fun _ h => absurd h (Nat.not_lt_zero _)⟩

theorem BusyRun.cons {s t : State} {n : Nat} (hb : s.busy = true) (h : BusyRun (cycle s) n t) :
    BusyRun s (n + 1) t := by
  refine ⟨h.1, fun m hm => ?_⟩
  cases m with
  | zero => exact hb
  | succ m => exact h.2 m (by omega)

theorem BusyRun.one {s t : State} (hb : s.busy = true) (h : cycle s = t) : BusyRun s 1 t := .cons hb (h ▸ .refl _)

/-- What the controller does in one cycle in which the round engine does not run, by its FSM state. -/
def controllerCycle (f : Fsm) (s : State) : State :=
  match f with
  | .idle => s
  | .check => checkCycle s
  | .key => loadPhase (keyOperand s) params.dsKey s
  | .aad => loadPhase (aadOperand s) params.dsAad s
  | .text => loadText (cmdqOp s == 0x2) s
  | .macmsg => loadPhase (msgOperand s) params.dsMac s
  | .final => loadPhase [] params.dsFinal s
  | .squeeze => squeezeCycle s
  | .compare => compareCycle s
  | .writeback => writebackCycle s
  | .zeroize => complete (datapathCode s) s

theorem cycle_of_fsm {s : State} {f : Fsm} (hlc : s.lc = 0) (hf : s.fsm = f) : cycle s = controllerCycle f s := by
  rw [cycle, if_neg (not_not.2 hlc), hf]
  cases f <;> rfl

/-! ## The round engine (40_permutation R131) -/

/-- The round engine has stopped, with `S` as its result. -/
def roundsDone (S : Sponge) (s : State) : State := { s with sponge := S, lc := 0, ridx := 90 }

theorem roundCycle_of_lt {s : State} (h : s.ridx + 1 < 90) :
    roundCycle s =
      { s with sponge := (round s.sponge s.lc).1, lc := (round s.sponge s.lc).2, ridx := s.ridx + 1 } := if_pos h

theorem roundCycle_last {s : State} (h : s.ridx + 1 = 90) :
    roundCycle s = afterPermute (roundsDone (round s.sponge s.lc).1 s) := by
  have hridx : ¬s.ridx + 1 < params.rounds := by rw [h]; decide
  rw [roundsDone, ← h]
  exact if_neg hridx

theorem rounds_succ (S : Sponge) (lc : BitVec 7) (k : Nat) :
    rounds S lc (k + 1) = rounds (round S lc).1 (round S lc).2 k := rfl

/-- By induction on the rounds left: the counter is never 0, so each cycle is a round. -/
theorem busyRun_rounds {s : State} {k : Nat} (hb : s.busy = true) (hlc : s.lc ≠ 0) (hk : s.ridx + (k + 1) = 90) :
    BusyRun s (k + 1) (afterPermute (roundsDone (rounds s.sponge s.lc (k + 1)).1 s)) := by
  induction k generalizing s with
  | zero => exact .one hb ((if_pos hlc).trans (roundCycle_last hk))
  | succ k ih =>
    have hround : cycle s = _ := (if_pos hlc).trans (roundCycle_of_lt (by omega))
    refine .cons hb ?_
    rw [hround, rounds_succ]
    exact ih hb (lfsrNext_ne_zero hlc) (by rw [Nat.add_right_comm, ← hk, Nat.add_assoc])

/-- A permutation takes 90 cycles. -/
theorem busyRun_permute {s : State} (S : Sponge) (hb : s.busy = true) :
    BusyRun (startPermute S s) 90 (afterPermute (roundsDone (permute S) s)) :=
  busyRun_rounds (s := startPermute S s) (k := 89) hb (by decide : params.lfsrInit ≠ 0) rfl

/-- A block takes one cycle to load and a permutation. -/
theorem busyRun_block {s u : State} {S : Sponge} {blk : Block} {c : Byte} (hs : s.busy = true) (hu : u.busy = true)
    (hload : cycle s = startPermute (inject S blk c) u) :
    BusyRun s 91 (afterPermute (roundsDone (absorbPair S (blk, c)) u)) := by
  refine .cons hs ?_
  rw [hload]
  exact busyRun_permute _ hu

/-- The controller is about to act on block `b` of phase `f`, after a permutation that gave `S`. -/
def blockStart (S : Sponge) (b : Nat) (f : Fsm) (s : State) : State := { roundsDone S s with bidx := b, fsm := f }

@[simp] theorem sponge_blockStart (S : Sponge) (b : Nat) (f : Fsm) (s : State) : (blockStart S b f s).sponge = S := rfl

@[simp] theorem bidx_blockStart (S : Sponge) (b : Nat) (f : Fsm) (s : State) : (blockStart S b f s).bidx = b := rfl

@[simp] theorem mem_blockStart (S : Sponge) (b : Nat) (f : Fsm) (s : State) : (blockStart S b f s).mem = s.mem := rfl

@[simp] theorem blockStart_blockStart (S S' : Sponge) (b b' : Nat) (f f' : Fsm) (s : State) :
    blockStart S' b' f' (blockStart S b f s) = blockStart S' b' f' s := rfl

@[simp] theorem msgLen_blockStart (S : Sponge) (b : Nat) (f : Fsm) (s : State) :
    (blockStart S b f s).msgLen = s.msgLen := rfl

@[simp] theorem cmdqOp_blockStart (S : Sponge) (b : Nat) (f : Fsm) (s : State) :
    cmdqOp (blockStart S b f s) = cmdqOp s := rfl

@[simp] theorem msgOperand_blockStart (S : Sponge) (b : Nat) (f : Fsm) (s : State) :
    msgOperand (blockStart S b f s) = msgOperand s := rfl

theorem afterPermute_next {s : State} (S : Sponge) (hf : s.fsm ≠ .squeeze) (h : s.bidx + 1 < phaseBlocks s) :
    afterPermute (roundsDone S s) = blockStart S (s.bidx + 1) s.fsm s :=
  (if_neg hf).trans (if_pos h)

theorem afterPermute_last {s : State} (S : Sponge) (hf : s.fsm ≠ .squeeze) (h : s.bidx + 1 = phaseBlocks s) :
    afterPermute (roundsDone S s) = blockStart S 0 (nextPhase s) s :=
  (if_neg hf).trans (if_neg (Nat.not_lt.2 h.ge))

theorem afterPermute_squeeze {s : State} (S : Sponge) (hf : s.fsm = .squeeze) :
    afterPermute (roundsDone S s) = roundsDone S s := if_pos hf

/-! ## Absorbing phases (41_padding R156 to R158) -/

/-- What the controller's present phase absorbs, and its constant. -/
def phaseInput (s : State) : List Byte × Byte :=
  match s.fsm with
  | .key => (keyOperand s, params.dsKey)
  | .aad => (aadOperand s, params.dsAad)
  | .macmsg => (msgOperand s, params.dsMac)
  | _ => ([], params.dsFinal)

/-- The controller is about to load a block of a phase that only absorbs. -/
structure Absorbing (s : State) : Prop where
  busy : s.busy = true
  lc : s.lc = 0
  fsm : s.fsm = .key ∨ s.fsm = .aad ∨ s.fsm = .macmsg ∨ s.fsm = .final

theorem phaseInput_blockStart (S : Sponge) (b : Nat) (s : State) :
    phaseInput (blockStart S b s.fsm s) = phaseInput s := rfl

theorem nextPhase_blockStart (S : Sponge) (b : Nat) (s : State) :
    nextPhase (blockStart S b s.fsm s) = nextPhase s := rfl

theorem Absorbing.after_block {s : State} (h : Absorbing s) (S : Sponge) (b : Nat) :
    Absorbing (blockStart S b s.fsm s) := ⟨h.busy, rfl, h.fsm⟩

theorem Absorbing.cycle_eq {s : State} (h : Absorbing s) :
    cycle s = loadPhase (phaseInput s).1 (phaseInput s).2 s := by
  rw [phaseInput]
  obtain hf | hf | hf | hf := h.fsm <;> rw [cycle_of_fsm h.lc hf, hf] <;> rfl

/-- Block BIDX of the phase is absorbed with its constant. -/
theorem Absorbing.busyRun_present {s : State} (h : Absorbing s) :
    BusyRun s 91 (afterPermute (roundsDone (absorbPair s.sponge
      ((pad (phaseInput s).1).getD s.bidx [], if s.bidx = 0 then (phaseInput s).2 else 0)) s)) := by
  have hload := h.cycle_eq
  rw [loadPhase, loadBlock] at hload
  exact busyRun_block h.busy h.busy hload

theorem Absorbing.phaseBlocks_eq {s : State} (h : Absorbing s) :
    phaseBlocks s = (phasePairs (phaseInput s).1 (phaseInput s).2).length := by
  rw [length_phasePairs, phaseBlocks, phaseInput]
  obtain hf | hf | hf | hf := h.fsm <;> rw [hf]
  · rfl
  · exact congrArg blockCount (length_aadOperand s).symm
  · exact congrArg blockCount (length_msgOperand s).symm
  · exact (blockCount_of_lt (len := 0) (by decide)).symm

theorem Absorbing.fsm_ne_squeeze {s : State} (h : Absorbing s) : s.fsm ≠ .squeeze := by
  obtain hf | hf | hf | hf := h.fsm <;> rw [hf] <;> decide

theorem drop_phasePairs {M : List Byte} {ds : Byte} {b : Nat} (hb : b < (phasePairs M ds).length) :
    (phasePairs M ds).drop b =
      ((pad M).getD b [], if b = 0 then ds else 0) :: (phasePairs M ds).drop (b + 1) := by
  have hpad : b < (pad M).length := by rwa [length_pad, ← length_phasePairs M ds]
  have hpair := phaseConstantOnFirstBlockOnly M ds b _ (List.getElem?_eq_getElem hpad)
  rw [List.drop_eq_getElem_cons hb, List.getD_eq_getElem _ _ hpad, (List.getElem?_eq_some_iff.1 hpair).2]

/-- By induction on the blocks left after the present one. -/
theorem Absorbing.busyRun_from {s : State} (h : Absorbing s) {n : Nat} (hn : s.bidx + (n + 1) = phaseBlocks s) :
    BusyRun s (91 * (n + 1))
      (blockStart (((phasePairs (phaseInput s).1 (phaseInput s).2).drop s.bidx).foldl absorbPair s.sponge) 0
        (nextPhase s) s) := by
  induction n generalizing s with
  | zero =>
    have hblock := h.busyRun_present
    rw [afterPermute_last _ h.fsm_ne_squeeze hn] at hblock
    have hrest : (phasePairs (phaseInput s).1 (phaseInput s).2).drop (s.bidx + 1) = [] :=
      List.drop_eq_nil_of_le (by rw [← h.phaseBlocks_eq, hn])
    rw [drop_phasePairs (by rw [← h.phaseBlocks_eq]; omega), hrest, List.foldl_cons, List.foldl_nil]
    exact hblock
  | succ n ih =>
    have hblock := h.busyRun_present
    rw [afterPermute_next _ h.fsm_ne_squeeze (by omega)] at hblock
    rw [drop_phasePairs (by rw [← h.phaseBlocks_eq]; omega), List.foldl_cons, Nat.mul_succ, Nat.add_comm]
    have hrun := hblock.trans (ih (h.after_block _ _) ((Nat.add_right_comm _ _ _).trans hn))
    rw [phaseInput_blockStart, nextPhase_blockStart, blockStart_blockStart, sponge_blockStart, bidx_blockStart] at hrun
    exact hrun

/-- A phase absorbs its whole input, one block in 91 cycles, and the next phase follows. -/
theorem Absorbing.busyRun {s : State} (h : Absorbing s) (hbidx : s.bidx = 0) :
    BusyRun s (91 * phaseBlocks s)
      (blockStart (absorbPhase s.sponge (phaseInput s).1 (phaseInput s).2) 0 (nextPhase s) s) := by
  obtain ⟨n, hn⟩ : ∃ n, phaseBlocks s = n + 1 :=
    Nat.exists_eq_succ_of_ne_zero (by rw [h.phaseBlocks_eq, length_phasePairs]; exact Nat.succ_ne_zero _)
  have hrun := h.busyRun_from (n := n) (by omega)
  rw [hbidx, List.drop_zero, ← hn] at hrun
  exact hrun

/-! ## The text phase (42_sponge R176, R177; 43_aead R205) -/

/-- The loop of both text phases: the block absorbed is the recovered text where `decrypt` is set, else the input. -/
def textBlocks (decrypt : Bool) (S : Sponge) (X : List Byte) (c : Byte) : Nat → List Byte × Sponge
  | 0 => ([], S)
  | n + 1 =>
    let y := xorStrings (X.take rb) (rate S)
    let r := textBlocks decrypt
      (absorbPair S (recoveredBlock (if decrypt then y else X.take rb) (n == 0), c)) (X.drop rb) 0 n
    (y ++ r.1, r.2)

theorem textBlocks_decrypt (S : Sponge) (C : List Byte) (c : Byte) (n : Nat) :
    textBlocks true S C c n = decryptBlocks S C c n := by
  induction n generalizing S C c with
  | zero => rfl
  | succ n ih => simp only [textBlocks, decryptBlocks, ih, if_true]

/-- By induction on the full blocks of the plaintext: only the last block is padded. -/
theorem textBlocks_encrypt (S : Sponge) (P : List Byte) (c : Byte) :
    textBlocks false S P c (blockCount P.length) = encryptBlocks S P (phasePairs P c) := by
  induction hblocks : P.length / 2 generalizing S P c with
  | zero =>
    have hlt : P.length < 2 := by omega
    simp only [phasePairs_of_lt hlt, blockCount_of_lt hlt, textBlocks, encryptBlocks, rb_eq,
      List.take_of_length_le hlt.le, beq_self_eq_true, Bool.false_eq_true, if_false]
  | succ k ih =>
    have hle : 2 ≤ P.length := by omega
    have hlast : (blockCount (P.drop 2).length == 0) = false := rfl
    simp only [phasePairs_of_le hle, blockCount_of_le hle, textBlocks, encryptBlocks, rb_eq, hlast, recoveredBlock,
      Bool.false_eq_true, if_false, ih _ (P.drop 2) 0 (by rw [List.length_drop]; omega)]

theorem Memory.take_readBytes (m : Memory) (a n k : Nat) : (m.readBytes a n).take k = m.readBytes a (min k n) := by
  induction k generalizing a n with
  | zero => rw [Nat.zero_min]; rfl
  | succ k ih =>
    cases n with
    | zero => rfl
    | succ n => rw [Nat.succ_min_succ, Memory.readBytes, List.take_succ_cons, ih, Memory.readBytes]

theorem Memory.drop_readBytes (m : Memory) (a n k : Nat) :
    (m.readBytes a n).drop k = m.readBytes (a + k) (n - k) := by
  induction k generalizing a n with
  | zero => rfl
  | succ k ih =>
    cases n with
    | zero => rw [Nat.zero_sub]; rfl
    | succ n => rw [Memory.readBytes, List.drop_succ_cons, ih, Nat.succ_sub_succ, Nat.add_right_comm, Nat.add_assoc]

theorem Memory.writeBytes_append (m : Memory) (a : Nat) (xs ys : List Byte) :
    m.writeBytes a (xs ++ ys) = (m.writeBytes a xs).writeBytes (a + xs.length) ys := by
  induction xs generalizing m a with
  | nil => rfl
  | cons x xs ih =>
    rw [List.cons_append, Memory.writeBytes, ih, Memory.writeBytes, List.length_cons, Nat.add_right_comm, Nat.add_assoc]

/-- The bytes of MSG from block BIDX on, which the text phase has not used yet. -/
def textLeft (s : State) : List Byte := s.mem.readBytes (msgBase + s.bidx * 2) (s.msgLen.toNat - s.bidx * 2)

/-- The controller is about to load a block of the text phase. -/
structure TextPhase (s : State) : Prop where
  busy : s.busy = true
  lc : s.lc = 0
  fsm : s.fsm = .text

/-- The output bytes of block BIDX. -/
def textOut (s : State) : List Byte := xorStrings ((textLeft s).take 2) (rate s.sponge)

/-- The block that the text phase absorbs. -/
def textBlock (decrypt last : Bool) (s : State) : Block :=
  recoveredBlock (if decrypt then textOut s else (textLeft s).take 2) last

/-- The output of block BIDX stands over its input. -/
def textStored (s : State) : State := { s with mem := s.mem.writeBytes (msgBase + s.bidx * 2) (textOut s) }

theorem TextPhase.cycle_eq {s : State} (h : TextPhase s) :
    cycle s = startPermute
      (inject s.sponge (textBlock (cmdqOp s == 0x2) (s.bidx + 1 == blockCount s.msgLen.toNat) s)
        (if s.bidx = 0 then params.dsText else 0))
      (textStored s) := by
  have hcycle : cycle s = loadText (cmdqOp s == 0x2) s := cycle_of_fsm h.lc h.fsm
  rw [hcycle, textStored, textBlock, textOut, textLeft, Memory.take_readBytes]
  rfl

theorem TextPhase.after_block {s : State} (h : TextPhase s) (S : Sponge) (b : Nat) :
    TextPhase (blockStart S b .text (textStored s)) := ⟨h.busy, rfl, rfl⟩

theorem TextPhase.fsm_ne_squeeze {s : State} (h : TextPhase s) : (textStored s).fsm ≠ .squeeze := by
  rw [textStored, h.fsm]
  decide

theorem TextPhase.phaseBlocks_eq {s : State} (h : TextPhase s) :
    phaseBlocks (textStored s) = blockCount s.msgLen.toNat := by
  rw [phaseBlocks, textStored, h.fsm]

theorem TextPhase.nextPhase_eq {s : State} (h : TextPhase s) : nextPhase (textStored s) = .final := by
  rw [nextPhase, textStored, h.fsm]

theorem length_textOut (s : State) : (textOut s).length = min 2 (s.msgLen.toNat - s.bidx * 2) := by
  have hlen : ((textLeft s).take 2).length = min 2 (s.msgLen.toNat - s.bidx * 2) := by
    rw [List.length_take, textLeft, Memory.length_readBytes]
  rw [textOut, length_xorStrings (by rw [length_rate, hlen]; exact Nat.min_le_left _ _), hlen]

/-- Writing a block's output leaves the bytes that follow it. -/
theorem textLeft_next (s : State) (S : Sponge) (f : Fsm) :
    textLeft (blockStart S (s.bidx + 1) f (textStored s)) = (textLeft s).drop 2 := by
  rw [textLeft, textLeft, Memory.drop_readBytes, Nat.sub_sub, Nat.add_assoc, ← Nat.succ_mul, bidx_blockStart,
    mem_blockStart, msgLen_blockStart, textStored]
  refine Memory.readBytes_congr fun i _ => Memory.read_writeBytes_outside s.mem _ (.inr ?_)
  rw [length_textOut]
  omega

theorem textBlocks_textLeft (decrypt : Bool) (s : State) (c : Byte) (n : Nat) :
    textBlocks decrypt s.sponge (textLeft s) c (n + 1) =
      (textOut s ++
        (textBlocks decrypt (absorbPair s.sponge (textBlock decrypt (n == 0) s, c)) ((textLeft s).drop 2) 0 n).1,
       (textBlocks decrypt (absorbPair s.sponge (textBlock decrypt (n == 0) s, c)) ((textLeft s).drop 2) 0 n).2) := rfl

/-- The text phase has written its output `r.1` from block BIDX on and reached the sponge state `r.2`. -/
def textDone (r : List Byte × Sponge) (s : State) : State :=
  blockStart r.2 0 .final { s with mem := s.mem.writeBytes (msgBase + s.bidx * 2) r.1 }

theorem textDone_blockStart (r : List Byte × Sponge) (S : Sponge) (f : Fsm) (s : State) :
    textDone r (blockStart S 0 f s) = blockStart r.2 0 .final { s with mem := s.mem.writeBytes msgBase r.1 } := rfl

theorem textDone_next {s : State} (hfull : (textOut s).length = 2) (r : List Byte × Sponge) (S : Sponge) (f : Fsm) :
    textDone r (blockStart S (s.bidx + 1) f (textStored s)) = textDone (textOut s ++ r.1, r.2) s := by
  rw [textDone, textDone, Memory.writeBytes_append, hfull, Nat.add_assoc, ← Nat.succ_mul, bidx_blockStart,
    mem_blockStart, textStored]
  rfl

theorem TextPhase.busyRun_next {s : State} (h : TextPhase s) (hn : s.bidx + 1 < blockCount s.msgLen.toNat) :
    BusyRun s 91
      (blockStart
        (absorbPair s.sponge (textBlock (cmdqOp s == 0x2) false s, if s.bidx = 0 then params.dsText else 0))
        (s.bidx + 1) .text (textStored s)) := by
  have hblock := busyRun_block h.busy (u := textStored s) h.busy h.cycle_eq
  rw [afterPermute_next _ h.fsm_ne_squeeze (h.phaseBlocks_eq ▸ hn), beq_eq_false_iff_ne.2 hn.ne] at hblock
  rw [← h.fsm]
  exact hblock

theorem TextPhase.busyRun_last {s : State} (h : TextPhase s) (hn : s.bidx + 1 = blockCount s.msgLen.toNat) :
    BusyRun s 91
      (textDone (textOut s,
        absorbPair s.sponge (textBlock (cmdqOp s == 0x2) true s, if s.bidx = 0 then params.dsText else 0)) s) := by
  have hblock := busyRun_block h.busy (u := textStored s) h.busy h.cycle_eq
  rw [afterPermute_last _ h.fsm_ne_squeeze (h.phaseBlocks_eq ▸ hn), h.nextPhase_eq, beq_iff_eq.2 hn] at hblock
  exact hblock

/-- By induction on the blocks left after the present one: each block's output is written over its input. -/
theorem TextPhase.busyRun_from {s : State} (h : TextPhase s) {n : Nat}
    (hn : s.bidx + (n + 1) = blockCount s.msgLen.toNat) :
    BusyRun s (91 * (n + 1))
      (textDone
        (textBlocks (cmdqOp s == 0x2) s.sponge (textLeft s) (if s.bidx = 0 then params.dsText else 0) (n + 1)) s) := by
  induction n generalizing s with
  | zero =>
    rw [textBlocks_textLeft, textBlocks, List.append_nil]
    exact h.busyRun_last hn
  | succ n ih =>
    have hfull : (textOut s).length = 2 := by
      rw [blockCount, rb_eq] at hn
      rw [length_textOut]
      omega
    have hrun := (h.busyRun_next (by omega)).trans (ih (h.after_block _ _) ((Nat.add_right_comm _ _ _).trans hn))
    rw [textLeft_next, textDone_next hfull] at hrun
    rw [textBlocks_textLeft, Nat.mul_succ, Nat.add_comm]
    exact hrun

/-- The text phase runs through the message operand, which its output replaces. -/
theorem TextPhase.busyRun {s : State} (h : TextPhase s) (hbidx : s.bidx = 0) :
    BusyRun s (91 * blockCount s.msgLen.toNat)
      (textDone
        (textBlocks (cmdqOp s == 0x2) s.sponge (msgOperand s) params.dsText (blockCount s.msgLen.toNat)) s) := by
  have hrun := h.busyRun_from (n := s.msgLen.toNat / 2) (by rw [hbidx, Nat.zero_add, blockCount, rb_eq])
  have hleft : textLeft s = msgOperand s := by rw [textLeft, hbidx]; rfl
  rw [hleft, hbidx, if_pos rfl] at hrun
  exact hrun

/-! ## Squeezing the tag (42_sponge R175, R179) -/

theorem Quad.ofBytes_congr {xs ys : List Byte} (h : ∀ i < 16, xs.getD i 0 = ys.getD i 0) :
    Quad.ofBytes xs = Quad.ofBytes ys := by
  have hword (i : Nat) (hi : i ≤ 12) :
      wordOfBytes (xs.getD i 0) (xs.getD (i + 1) 0) (xs.getD (i + 2) 0) (xs.getD (i + 3) 0) =
        wordOfBytes (ys.getD i 0) (ys.getD (i + 1) 0) (ys.getD (i + 2) 0) (ys.getD (i + 3) 0) := by
    rw [h i (by omega), h (i + 1) (by omega), h (i + 2) (by omega), h (i + 3) (by omega)]
  simp only [Quad.ofBytes, hword 0 (by decide), hword 4 (by decide), hword 8 (by decide), hword 12 (by decide)]

theorem Quad.getD_bytes_ofBytes (bs : List Byte) {i : Nat} (hi : i < 16) :
    (Quad.ofBytes bs).bytes.getD i 0 = bs.getD i 0 := by
  rw [Quad.bytes_ofBytes, List.getD_eq_getElem _ _ (by simpa using hi), List.getElem_map, List.getElem_range]

/-- Bytes set at the end of a string held in a quad are appended to it: past the string's end the quad holds zeros. -/
theorem Quad.setBytes_ofBytes {bs ys : List Byte} (h : bs.length + ys.length ≤ 16) :
    (Quad.ofBytes bs).setBytes bs.length ys = Quad.ofBytes (bs ++ ys) := by
  have htake : (Quad.ofBytes bs).bytes.take bs.length = bs := by
    refine List.ext_getElem (by simp [Quad.length_bytes]; omega) fun i _ hi => ?_
    have hbyte := Quad.getD_bytes_ofBytes bs (i := i) (by omega)
    rw [List.getElem_take, ← List.getD_eq_getElem _ 0, hbyte, List.getD_eq_getElem _ _ hi]
  rw [Quad.setBytes, htake]
  refine Quad.ofBytes_congr fun i hi => ?_
  obtain hin | hout := Nat.lt_or_ge i (bs ++ ys).length
  · exact List.getD_append _ _ _ _ hin
  · rw [List.getD_append_right _ _ _ _ hout, List.getD_eq_default (l := bs ++ ys) _ hout]
    rw [List.length_append] at hout ⊢
    rw [List.getD_eq_getElem?_getD, List.getElem?_drop, Nat.add_sub_cancel' hout, ← List.getD_eq_getElem?_getD,
      Quad.getD_bytes_ofBytes bs hi, List.getD_eq_default _ _ (by omega)]

/-- The controller is about to read the rate into TAGC, which holds the bytes `bs` read before. -/
structure Squeezing (bs : List Byte) (s : State) : Prop where
  busy : s.busy = true
  lc : s.lc = 0
  ridx : s.ridx = 90
  fsm : s.fsm = .squeeze
  sqcnt : s.sqcnt = bs.length
  tagc : s.tagc = Quad.ofBytes bs

/-- TAGC holds the bytes `bs` and the round engine has stopped at `S`. -/
def tagRead (bs : List Byte) (S : Sponge) (s : State) : State :=
  { roundsDone S s with tagc := Quad.ofBytes bs, sqcnt := bs.length }

/-- The phase after the tag is read. -/
def tagPhase (s : State) : Fsm := if cmdqOp s = 0x2 then .compare else .writeback

/-- The squeeze `r` is over: its bytes stand in TAGC. -/
def tagDone (r : List Byte × Sponge) (s : State) : State := { tagRead r.1 r.2 s with fsm := tagPhase s }

theorem tagDone_tagRead (r : List Byte × Sponge) (bs : List Byte) (S : Sponge) (s : State) :
    tagDone r (tagRead bs S s) = tagDone r s := rfl

theorem Squeezing.after_read {bs : List Byte} {s : State} (h : Squeezing bs s) (bs' : List Byte) (S : Sponge) :
    Squeezing bs' (tagRead bs' S s) := ⟨h.busy, rfl, rfl, h.fsm, rfl, rfl⟩

theorem Squeezing.cycle_eq {bs : List Byte} {s : State} (h : Squeezing bs s) (hlen : bs.length + 2 ≤ 16) :
    cycle s =
      if bs.length + 2 < 16 then startPermute s.sponge (tagRead (bs ++ rate s.sponge) s.sponge s)
      else tagDone (bs ++ rate s.sponge, s.sponge) s := by
  have hcycle : cycle s = squeezeCycle s := cycle_of_fsm h.lc h.fsm
  have hstopped : roundsDone s.sponge s = s := by rw [roundsDone, ← h.lc, ← h.ridx]
  have hset : s.tagc.setBytes s.sqcnt (rate s.sponge) = Quad.ofBytes (bs ++ rate s.sponge) := by
    rw [h.tagc, h.sqcnt]
    exact Quad.setBytes_ofBytes hlen
  rw [hcycle, squeezeCycle, hset, tagDone, tagRead, hstopped, List.length_append, length_rate, h.sqcnt]
  rfl

theorem Squeezing.busyRun_next {bs : List Byte} {s : State} (h : Squeezing bs s) (hlen : bs.length + 2 < 16) :
    BusyRun s 91 (tagRead (bs ++ rate s.sponge) (permute s.sponge) s) := by
  refine .cons h.busy ?_
  rw [h.cycle_eq hlen.le, if_pos hlen]
  have hrun := busyRun_permute (s := tagRead (bs ++ rate s.sponge) s.sponge s) s.sponge h.busy
  have hfsm : (tagRead (bs ++ rate s.sponge) s.sponge s).fsm = .squeeze := h.fsm
  rw [afterPermute_squeeze _ hfsm] at hrun
  exact hrun

/-- By induction on the reads left: each takes two bytes of the rate, and a permutation lies between two. -/
theorem Squeezing.busyRun_from {bs : List Byte} {s : State} (h : Squeezing bs s) {j n fuel : Nat}
    (hn : n = 2 * (j + 1)) (hfuel : j ≤ fuel) (hlen : bs.length + n = 16) :
    BusyRun s (91 * j + 1)
      (tagDone (bs ++ (squeezeLoop s.sponge n fuel).1, (squeezeLoop s.sponge n fuel).2) s) := by
  induction j generalizing bs s n fuel with
  | zero =>
    refine .cons h.busy ?_
    rw [h.cycle_eq (by omega), if_neg (by omega), squeezeLoop_of_le s.sponge _ hn.le, hn,
      List.take_of_length_le (length_rate _).le]
    exact .refl _
  | succ j ih =>
    obtain ⟨fuel, rfl⟩ : ∃ k, fuel = k + 1 := Nat.exists_eq_succ_of_ne_zero (by omega)
    have hlen' : (bs ++ rate s.sponge).length + (n - 2) = 16 := by
      rw [List.length_append, length_rate]
      omega
    have hrest := ih (h.after_read (bs ++ rate s.sponge) (permute s.sponge)) (n := n - 2) (fuel := fuel)
      (by omega) (by omega) hlen'
    rw [tagDone_tagRead, List.append_assoc] at hrest
    rw [squeezeLoop_of_lt s.sponge _ (by omega), Nat.mul_succ, Nat.add_right_comm, Nat.add_comm]
    exact (h.busyRun_next (by omega)).trans hrest

/-- Reading the tag takes eight reads, with a permutation between two. -/
theorem Squeezing.busyRun {s : State} (h : Squeezing [] s) :
    BusyRun s (91 * 7 + 1) (tagDone (squeeze s.sponge params.tlenFix) s) := by
  have hrun := h.busyRun_from (n := params.tlenFix) (fuel := params.tlenFix) (j := 7) rfl (by decide) rfl
  rwa [List.nil_append, Prod.mk.eta, ← squeeze] at hrun

end Sys2Proof.Machine
end

section
/-!
The commands of the reference datapath (43_aead R196, R213, R214; 44_control R232; 70_reset R297, R298). The runs of
CHECK, of the phases and of a command's end, joined, take exactly the command's latency and end in the state of its
completion step: the completion record hides what the phases left in the hidden registers.
-/

namespace Sys2Proof.Machine

/-! ## From the key phase to the tag -/

/-- The registers that the phases rely on are as acceptance left them. -/
structure Fresh (s : State) : Prop where
  busy : s.busy = true
  lc : s.lc = 0
  bidx : s.bidx = 0
  sqcnt : s.sqcnt = 0
  diff : s.diff = 0
  tagc : s.tagc = Quad.zero

theorem Fresh.after_block {s : State} (h : Fresh s) (S : Sponge) (f : Fsm) : Fresh (blockStart S 0 f s) :=
  ⟨h.busy, rfl, rfl, h.sqcnt, h.diff, h.tagc⟩

theorem Fresh.with_mem {s : State} (h : Fresh s) (m : Memory) : Fresh { s with mem := m } :=
  ⟨h.busy, h.lc, h.bidx, h.sqcnt, h.diff, h.tagc⟩

theorem Fresh.busyRun_key {s : State} (h : Fresh s) (hf : s.fsm = .key) (hS : s.sponge = 0) :
    BusyRun s (91 * blockCount params.klen)
      (blockStart (initSponge (keyOperand s)) 0 (if cmdqOp s = 0x3 then .macmsg else .aad) s) := by
  have hphase : Absorbing s := ⟨h.busy, h.lc, .inl hf⟩
  have hrun := hphase.busyRun h.bidx
  have hinput : phaseInput s = (keyOperand s, params.dsKey) := by rw [phaseInput, hf]
  have hblocks : phaseBlocks s = blockCount params.klen := by rw [phaseBlocks, hf]
  rw [hinput, hblocks, nextPhase, hf, hS, ← initSponge] at hrun
  exact hrun

/-- A later phase, from its first block: what it absorbs, how many blocks that are and what follows do not depend on the
sponge state `S` that the phase before it left. -/
theorem Fresh.busyRun_phase {s : State} (h : Fresh s) (S : Sponge) {f f' : Fsm} {M : List Byte} {ds : Byte} {n : Nat}
    (hf : f = .aad ∨ f = .macmsg ∨ f = .final) (hinput : ∀ S, phaseInput (blockStart S 0 f s) = (M, ds))
    (hblocks : ∀ S, phaseBlocks (blockStart S 0 f s) = n) (hnext : ∀ S, nextPhase (blockStart S 0 f s) = f') :
    BusyRun (blockStart S 0 f s) (91 * n) (blockStart (absorbPhase S M ds) 0 f' s) := by
  have hphase : Absorbing (blockStart S 0 f s) := ⟨h.busy, rfl, .inr hf⟩
  have hrun := hphase.busyRun rfl
  rw [hinput, hblocks, hnext] at hrun
  exact hrun

/-- The squeeze that gives the tag for a sponge state. -/
def tagSqueeze (S : Sponge) : List Byte × Sponge := squeeze (finalize S) params.tlenFix

theorem tagSqueeze_fst (S : Sponge) : (tagSqueeze S).1 = tagOf S := by rw [tagSqueeze, tagOf]

/-- FINAL and SQUEEZE are over: the squeeze `r` gave the tag, and memory is `m`. -/
def tagged (m : Memory) (r : List Byte × Sponge) (s : State) : State := tagDone r { s with mem := m, bidx := 0 }

theorem tagDone_blockStart (r : List Byte × Sponge) (S : Sponge) (f : Fsm) (s : State) :
    tagDone r (blockStart S 0 f s) = tagged s.mem r s := rfl

/-- FINAL and SQUEEZE. -/
theorem Fresh.busyRun_tag {s : State} (h : Fresh s) (S : Sponge) :
    BusyRun (blockStart S 0 .final s) (91 * 1 + (91 * 7 + 1)) (tagged s.mem (tagSqueeze S) s) := by
  have hfinal := h.busyRun_phase S (M := []) (ds := params.dsFinal) (n := 1) (f' := .squeeze) (.inr (.inr rfl))
    (fun _ => rfl) (fun _ => rfl) (fun _ => rfl)
  have hsqueeze := Squeezing.busyRun (s := blockStart (finalize S) 0 .squeeze s)
    ⟨h.busy, rfl, rfl, rfl, h.sqcnt, h.tagc⟩
  rw [sponge_blockStart, tagDone_blockStart, ← tagSqueeze] at hsqueeze
  exact hfinal.trans hsqueeze

/-- The cycles from the key phase to the tag, by the numbers of AAD and message blocks. -/
def tagCycles (aadBlocks msgBlocks : Nat) : Nat :=
  91 * blockCount params.klen + (91 * aadBlocks + (91 * msgBlocks + (91 * 1 + (91 * 7 + 1))))

/-- MAC up to its tag: the key phase, the message phase, FINAL and SQUEEZE. -/
theorem Fresh.busyRun_mac {s : State} (h : Fresh s) (hf : s.fsm = .key) (hS : s.sponge = 0) (hop : cmdqOp s = 0x3) :
    BusyRun s (tagCycles 0 (blockCount s.msgLen.toNat))
      (tagged s.mem (tagSqueeze (absorbPhase (initSponge (keyOperand s)) (msgOperand s) params.dsMac)) s) := by
  have hkey := h.busyRun_key hf hS
  rw [if_pos hop] at hkey
  have hmsg := h.busyRun_phase (initSponge (keyOperand s)) (M := msgOperand s) (ds := params.dsMac)
    (n := blockCount s.msgLen.toNat) (f' := .final) (.inr (.inl rfl)) (fun _ => rfl) (fun _ => rfl) (fun _ => rfl)
  rw [tagCycles, Nat.mul_zero, Nat.zero_add]
  exact hkey.trans (hmsg.trans (h.busyRun_tag _))

/-- The sponge state in which the text phase begins. -/
def textSponge (s : State) : Sponge := absorbPhase (initSponge (keyOperand s)) (aadOperand s) params.dsAad

/-- What the text phase gives. -/
def textResult (decrypt : Bool) (s : State) : List Byte × Sponge :=
  textBlocks decrypt (textSponge s) (msgOperand s) params.dsText (blockCount s.msgLen.toNat)

theorem textResult_encrypt (s : State) : textResult false s = encryptText (textSponge s) (msgOperand s) := by
  rw [textResult, encryptText, ← textBlocks_encrypt, length_msgOperand]

theorem textResult_decrypt (s : State) : textResult true s = decryptText (textSponge s) (msgOperand s) := by
  rw [textResult, decryptText, ← textBlocks_decrypt, length_msgOperand]

/-- The text phase, from its first block. -/
theorem Fresh.busyRun_text {s : State} (h : Fresh s) :
    BusyRun (blockStart (textSponge s) 0 .text s) (91 * blockCount s.msgLen.toNat)
      (blockStart (textResult (cmdqOp s == 0x2) s).2 0 .final
        { s with mem := s.mem.writeBytes msgBase (textResult (cmdqOp s == 0x2) s).1 }) := by
  have hrun := TextPhase.busyRun (s := blockStart (textSponge s) 0 .text s) ⟨h.busy, rfl, rfl⟩ rfl
  rw [textDone_blockStart, msgOperand_blockStart, sponge_blockStart, cmdqOp_blockStart, msgLen_blockStart,
    ← textResult] at hrun
  exact hrun

/-- WRAP and UNWRAP up to the tag: the key, AAD and text phases, FINAL and SQUEEZE. -/
theorem Fresh.busyRun_aead {s : State} (h : Fresh s) (hf : s.fsm = .key) (hS : s.sponge = 0) (hop : cmdqOp s ≠ 0x3) :
    BusyRun s (tagCycles (blockCount s.aadLen.toNat) (blockCount s.msgLen.toNat))
      (tagged (s.mem.writeBytes msgBase (textResult (cmdqOp s == 0x2) s).1)
        (tagSqueeze (textResult (cmdqOp s == 0x2) s).2) s) := by
  have hkey := h.busyRun_key hf hS
  rw [if_neg hop] at hkey
  have haad := h.busyRun_phase (initSponge (keyOperand s)) (M := aadOperand s) (ds := params.dsAad)
    (n := blockCount s.aadLen.toNat) (f' := .text) (.inl rfl) (fun _ => rfl) (fun _ => rfl) (fun _ => rfl)
  exact hkey.trans (haad.trans (h.busyRun_text.trans ((h.with_mem _).busyRun_tag _)))

/-! ## Comparing the tags (43_aead R213) -/

/-- The controller is about to compare byte BIDX, and DIFF holds the difference of the bytes before it. -/
structure Comparing (s : State) : Prop where
  busy : s.busy = true
  lc : s.lc = 0
  fsm : s.fsm = .compare
  diff : s.diff = tagDiff s.tagc.bytes s.tag.bytes s.bidx

/-- The first `n` bytes are compared, and byte `b` of phase `f` is next. -/
def compared (n b : Nat) (f : Fsm) (s : State) : State :=
  { s with diff := tagDiff s.tagc.bytes s.tag.bytes n, bidx := b, fsm := f }

theorem Comparing.cycle_eq {s : State} (h : Comparing s) :
    cycle s =
      if s.bidx + 1 < 16 then compared (s.bidx + 1) (s.bidx + 1) .compare s
      else compared (s.bidx + 1) 0 .writeback s := by
  have hcycle : cycle s = compareCycle s := cycle_of_fsm h.lc h.fsm
  rw [hcycle, compareCycle, h.diff, compared, ← h.fsm]
  rfl

/-- By induction on the bytes left after the present one. -/
theorem Comparing.busyRun {s : State} (h : Comparing s) {j : Nat} (hj : s.bidx + (j + 1) = 16) :
    BusyRun s (j + 1) (compared 16 0 .writeback s) := by
  induction j generalizing s with
  | zero =>
    refine .one h.busy (h.cycle_eq.trans ?_)
    rw [if_neg (by omega), hj]
  | succ j ih =>
    refine .cons h.busy ?_
    rw [h.cycle_eq, if_pos (by omega)]
    exact ih ⟨h.busy, h.lc, rfl, rfl⟩ ((Nat.add_right_comm _ _ _).trans hj)

/-! ## Clearing the buffers (44_control R232) -/

/-- Zeroizing a range word by word: the next four bytes join those zeroized before. -/
theorem Memory.zeroRange_zeroRange (m : Memory) (a n k : Nat) :
    (m.zeroRange a n).zeroRange (a + n) k = m.zeroRange a (n + k) := by
  rw [Memory.zeroRange, Memory.zeroRange, Memory.zeroRange, List.filter_filter]
  refine List.filter_congr fun c _ => ?_
  rw [Bool.eq_iff_iff]
  simp only [Bool.and_eq_true, Bool.or_eq_true, decide_eq_true_eq]
  omega

theorem Memory.zeroRange_zero (m : Memory) (a : Nat) : m.zeroRange a 0 = m := by
  refine List.filter_eq_self.2 fun c _ => ?_
  simp only [Bool.or_eq_true, decide_eq_true_eq]
  omega

/-- Memory after the first `k` words of the two buffers were cleared: AAD first, then MSG. -/
def clearedWords (m : Memory) (k : Nat) : Memory :=
  (m.zeroRange aadBase (min (4 * k) params.aadMax)).zeroRange msgBase (4 * k - params.aadMax)

theorem clearedWords_zero (m : Memory) : clearedWords m 0 = m := by
  rw [clearedWords, Nat.mul_zero, Nat.zero_min, Nat.zero_sub, Memory.zeroRange_zero, Memory.zeroRange_zero]

theorem clearedWords_succ (m : Memory) (k : Nat) :
    (clearedWords m k).zeroRange
        (if 4 * k < params.aadMax then aadBase + 4 * k else msgBase + (4 * k - params.aadMax)) 4 =
      clearedWords m (k + 1) := by
  have h256 : params.aadMax = 256 := rfl
  rw [clearedWords, clearedWords, h256]
  split
  next hlow =>
    rw [Nat.min_eq_left (by omega), Nat.min_eq_left (by omega), Nat.sub_eq_zero_of_le (by omega),
      Nat.sub_eq_zero_of_le (by omega), Memory.zeroRange_zero, Memory.zeroRange_zero, Memory.zeroRange_zeroRange,
      Nat.mul_succ]
  next hhigh =>
    have hnext : 4 * k - 256 + 4 = 4 * (k + 1) - 256 := by omega
    rw [Nat.min_eq_right (by omega), Nat.min_eq_right (by omega), Memory.zeroRange_zeroRange, hnext]

/-- The controller is about to clear word BIDX of the buffers, and has cleared the words of `m` before it. -/
structure Clearing (m : Memory) (s : State) : Prop where
  busy : s.busy = true
  lc : s.lc = 0
  fsm : s.fsm = .writeback
  op : cmdqOp s = 0x4
  mem : s.mem = clearedWords m s.bidx

/-- The first `k` words of the buffers and the registers of CLEAR are cleared. -/
def clearDone (m : Memory) (k : Nat) (s : State) : State :=
  { s with mem := clearedWords m k, bidx := 0, tag := Quad.zero, aadLen := 0, msgLen := 0, fsm := .zeroize }

theorem Clearing.cycle_eq {m : Memory} {s : State} (h : Clearing m s) :
    cycle s =
      if s.bidx + 1 < 320 then { s with mem := clearedWords m (s.bidx + 1), bidx := s.bidx + 1 }
      else clearDone m (s.bidx + 1) s := by
  have hcycle : cycle s = writebackCycle s := cycle_of_fsm h.lc h.fsm
  rw [hcycle, writebackCycle, if_pos h.op, clearCycle, h.mem, clearedWords_succ]
  rfl

/-- By induction on the words left after the present one. -/
theorem Clearing.busyRun {m : Memory} {s : State} (h : Clearing m s) {j : Nat} (hj : s.bidx + (j + 1) = 320) :
    BusyRun s (j + 1) (clearDone m 320 s) := by
  induction j generalizing s with
  | zero =>
    refine .one h.busy (h.cycle_eq.trans ?_)
    rw [if_neg (by omega), hj]
  | succ j ih =>
    refine .cons h.busy ?_
    rw [h.cycle_eq, if_pos (by omega)]
    exact ih ⟨h.busy, h.lc, h.fsm, h.op, rfl⟩ ((Nat.add_right_comm _ _ _).trans hj)

/-! ## The ends of a command -/

/-- ZEROIZE leaves the completion record, which does not depend on what it overwrites. -/
theorem busyRun_zeroize {s v : State} {code : ResultCode} (hcode : datapathCode s = code) (hb : s.busy = true)
    (hlc : s.lc = 0) (hf : s.fsm = .zeroize) (hv : complete code s = complete code v) :
    BusyRun s 1 (complete code v) := by
  refine .one hb ((cycle_of_fsm hlc hf).trans ?_)
  rw [controllerCycle, hcode, hv]

/-- CHECK lets a valid command through and sends any other to ZEROIZE. -/
theorem cycle_check {s : State} (hlc : s.lc = 0) (hf : s.fsm = .check) :
    cycle s =
      { s with fsm := if validate s.cmdq s = .ok then if cmdqOp s = 0x4 then .writeback else .key else .zeroize } := by
  have hcycle : cycle s = checkCycle s := cycle_of_fsm hlc hf
  rw [hcycle, checkCycle]
  cases validate s.cmdq s <;> rfl

theorem opField_of_validate_ok {w : Word} {s : State} (h : validate w s = .ok) :
    opField w = 0x1 ∨ opField w = 0x2 ∨ opField w = 0x3 ∨ opField w = 0x4 := by
  unfold validate at h
  split_ifs at h
  · simp_all
  · tauto

theorem msgLen_of_validate_ok {w : Word} {s : State} (h : validate w s = .ok) (hop : opField w ≠ 0x4) :
    s.msgLen.toNat ≤ 1024 := by
  unfold validate at h
  split_ifs at h
  exact (validateKeyed_ok.1 h).2.2.1

/-- A CLEAR that validation let through is let through in every state. -/
theorem validate_clear {w : Word} {s : State} (h : validate w s = .ok) (hop : opField w = 0x4) (t : State) :
    validate w t = .ok := by
  unfold validate at h ⊢
  split_ifs at h ⊢
  rfl

/-- Bytes written over bytes of the same range leave nothing of them. -/
theorem Memory.writeBytes_writeBytes {m : Memory} {a : Nat} {xs ys : List Byte} (h : m.wf = true)
    (hlen : xs.length = ys.length) (ha : ∀ i < ys.length, bufferOffset (a + i) = true) :
    (m.writeBytes a xs).writeBytes a ys = m.writeBytes a ys := by
  have ha' : ∀ i < xs.length, bufferOffset (a + i) = true := hlen ▸ ha
  have hxs := Memory.writeBytes_wf h ha'
  refine Memory.eq_of_read_eq (Memory.writeBytes_wf hxs ha) (Memory.writeBytes_wf h ha) fun x => ?_
  rw [Memory.read_writeBytes hxs ha, Memory.read_writeBytes h ha, Memory.read_writeBytes h ha', hlen]
  split <;> rfl

/-! ## The commands -/

theorem Inv.fresh {s : State} (h : Inv s) (hb : s.busy = true) (f : Fsm) : Fresh { s with fsm := f } := by
  obtain ⟨-, hlc, -, hbidx, hsqcnt, hdiff, htagc⟩ := h.hidden
  exact ⟨hb, hlc, hbidx, hsqcnt, hdiff, htagc⟩

/-- The cycle of CHECK, in an accepted command's first state. -/
theorem Inv.busyRun_check {s : State} (h : Inv s) (hb : s.busy = true) :
    BusyRun s 1
      { s with fsm := if validate s.cmdq s = .ok then if cmdqOp s = 0x4 then .writeback else .key else .zeroize } :=
  .one hb (cycle_check (h.fresh hb s.fsm).lc (h.fsm.trans (if_pos hb)))

/-- A command that a check turns away: CHECK and ZEROIZE. -/
theorem busyRun_turnedAway {s : State} (h : Inv s) (hb : s.busy = true) (hv : validate s.cmdq s ≠ .ok) :
    BusyRun s (1 + 1) (completeStep s.cmdq s) := by
  have hcheck := h.busyRun_check hb
  rw [if_neg hv] at hcheck
  have hcode : datapathCode { s with fsm := .zeroize } = datapathCode s := rfl
  have hend := busyRun_zeroize (v := s) hcode hb (h.fresh hb .zeroize).lc rfl rfl
  have hstep : complete (datapathCode s) s = completeStep s.cmdq s := by
    rw [datapathCode, completeStep]
    cases hv' : validate s.cmdq s with
    | ok => exact absurd hv' hv
    | fail | badHashBitLen => rfl
  rw [hstep] at hend
  exact hcheck.trans hend

theorem datapathCode_eq_success {s : State} (hv : validate s.cmdq s = .ok) (hdiff : cmdqOp s = 0x2 → s.diff = 0) :
    datapathCode s = .success := by
  rw [datapathCode, hv]
  exact if_neg fun h => h.2 (hdiff h.1)

theorem datapathCode_eq_badTag {s : State} (hv : validate s.cmdq s = .ok) (hop : cmdqOp s = 0x2)
    (hdiff : s.diff ≠ 0) : datapathCode s = .badTag := by
  rw [datapathCode, hv]
  exact if_pos ⟨hop, hdiff⟩

/-- CLEAR: CHECK, a cycle for each word of the buffers, and ZEROIZE. -/
theorem busyRun_clear {s : State} (h : Inv s) (hb : s.busy = true) (hv : validate s.cmdq s = .ok)
    (hop : cmdqOp s = 0x4) : BusyRun s (1 + (320 + 1)) (complete .success (clearEffects s)) := by
  have hcheck := h.busyRun_check hb
  rw [if_pos hv, if_pos hop] at hcheck
  have hfresh := h.fresh hb .writeback
  have hmem : s.mem = clearedWords s.mem s.bidx := by rw [show s.bidx = 0 from hfresh.bidx, clearedWords_zero]
  have hclear := Clearing.busyRun (m := s.mem) (j := 319) ⟨hfresh.busy, hfresh.lc, rfl, hop, hmem⟩
    (by rw [hfresh.bidx])
  have hcode : datapathCode (clearDone s.mem 320 { s with fsm := .writeback }) = .success :=
    datapathCode_eq_success (validate_clear hv hop _) fun h2 => absurd (hop.symm.trans h2) (by decide)
  exact hcheck.trans (hclear.trans (busyRun_zeroize hcode hb hfresh.lc rfl rfl))

/-- The controller is about to act in WRITEBACK for a command that validation let through. -/
structure WritingBack (s : State) : Prop where
  busy : s.busy = true
  lc : s.lc = 0
  fsm : s.fsm = .writeback
  valid : validate s.cmdq s = .ok

theorem WritingBack.cycle_eq {s : State} (h : WritingBack s) : cycle s = writebackCycle s := cycle_of_fsm h.lc h.fsm

/-- WRITEBACK of WRAP and MAC puts the tag into TAG. -/
theorem WritingBack.busyRun_tag {s : State} (h : WritingBack s) (hop4 : cmdqOp s ≠ 0x4) (hop2 : cmdqOp s ≠ 0x2) :
    BusyRun s (1 + 1) (complete .success { s with tag := s.tagc }) := by
  have hcycle := h.cycle_eq
  rw [writebackCycle, if_neg hop4, if_neg hop2] at hcycle
  have hcode : datapathCode { s with tag := s.tagc, fsm := .zeroize } = .success :=
    datapathCode_eq_success h.valid fun hop => absurd hop hop2
  exact (BusyRun.one h.busy hcycle).trans (busyRun_zeroize hcode h.busy h.lc rfl rfl)

/-- WRITEBACK of an UNWRAP whose tags are equal keeps the recovered text. -/
theorem WritingBack.busyRun_accept {s : State} (h : WritingBack s) (hop : cmdqOp s = 0x2) (hdiff : s.diff = 0) :
    BusyRun s (1 + 1) (complete .success s) := by
  have hcycle := h.cycle_eq
  rw [writebackCycle, if_neg (by rw [hop]; decide), if_pos hop, if_pos hdiff] at hcycle
  have hcode : datapathCode { s with fsm := .zeroize } = .success := datapathCode_eq_success h.valid fun _ => hdiff
  exact (BusyRun.one h.busy hcycle).trans (busyRun_zeroize hcode h.busy h.lc rfl rfl)

/-- WRITEBACK of an UNWRAP whose tags differ writes zero bytes over the recovered text. -/
theorem WritingBack.busyRun_reject {s : State} (h : WritingBack s) (hop : cmdqOp s = 0x2) (hdiff : s.diff ≠ 0) :
    BusyRun s (1 + 1) (complete .badTag (s.writeMsg (List.replicate s.msgLen.toNat 0))) := by
  have hcycle := h.cycle_eq
  rw [writebackCycle, if_neg (by rw [hop]; decide), if_pos hop, if_neg hdiff] at hcycle
  have hcode : datapathCode { s.writeMsg (List.replicate s.msgLen.toNat 0) with fsm := .zeroize } = .badTag :=
    datapathCode_eq_badTag h.valid hop hdiff
  exact (BusyRun.one h.busy hcycle).trans (busyRun_zeroize hcode h.busy h.lc rfl rfl)

/-- COMPARE and WRITEBACK of UNWRAP decide on equality of the tags. -/
theorem Comparing.busyRun_verdict {s : State} (h : Comparing s) (hbidx : s.bidx = 0) (hop : cmdqOp s = 0x2)
    (hv : validate s.cmdq s = .ok) :
    BusyRun s (16 + (1 + 1))
      (if s.tagc.bytes = s.tag.bytes then complete .success s
       else complete .badTag (s.writeMsg (List.replicate s.msgLen.toNat 0))) := by
  have hwb : WritingBack (compared 16 0 .writeback s) := ⟨h.busy, h.lc, rfl, hv⟩
  have hdiff : (compared 16 0 .writeback s).diff = 0 ↔ s.tagc.bytes = s.tag.bytes := by
    rw [← tagComparisonCoversAllBytes _ _ (Quad.length_bytes _) (Quad.length_bytes _), ctEqual, beq_iff_eq]
    rfl
  refine (h.busyRun (j := 15) (by rw [hbidx])).trans ?_
  split
  next heq => exact hwb.busyRun_accept hop (hdiff.2 heq)
  next hne => exact hwb.busyRun_reject hop (mt hdiff.1 hne)

/-! ## The whole command -/

/-- After SQUEEZE the completion of WRAP and MAC is two cycles away. -/
theorem busyRun_tagged_tag {m : Memory} {r : List Byte × Sponge} {s : State} (hb : s.busy = true)
    (hv : validate s.cmdq s = .ok) (hop4 : cmdqOp s ≠ 0x4) (hop2 : cmdqOp s ≠ 0x2) :
    BusyRun (tagged m r s) (1 + 1) (complete .success (State.writeTag { s with mem := m } r.1)) :=
  WritingBack.busyRun_tag (s := tagged m r s) ⟨hb, rfl, if_neg hop2, hv⟩ hop4 hop2

/-- After SQUEEZE the completion of UNWRAP is the comparison and two cycles away. -/
theorem busyRun_tagged_verdict {m : Memory} {r : List Byte × Sponge} {s : State} (hlen : r.1.length = 16)
    (hb : s.busy = true) (hv : validate s.cmdq s = .ok) (hop : cmdqOp s = 0x2) (hdiff : s.diff = 0) :
    BusyRun (tagged m r s) (16 + (1 + 1))
      (if r.1 = tagOperand s then complete .success { s with mem := m }
       else complete .badTag (State.writeMsg { s with mem := m } (List.replicate s.msgLen.toNat 0))) := by
  have hrun := Comparing.busyRun_verdict (s := tagged m r s) ⟨hb, rfl, if_pos hop, hdiff⟩ rfl hop hv
  have htag : (tagged m r s).tagc.bytes = r.1 := Quad.bytes_ofBytes_of_length hlen
  rw [htag] at hrun
  exact hrun

/-- CHECK has let a command through to the key phase. -/
structure KeyStart (s : State) : Prop extends Fresh s where
  fsm : s.fsm = .key
  sponge : s.sponge = 0
  valid : validate s.cmdq s = .ok
  wf : s.mem.wf = true

theorem KeyStart.busyRun_mac {s : State} (h : KeyStart s) (hop : cmdqOp s = 0x3) :
    BusyRun s (tagCycles 0 (blockCount s.msgLen.toNat) + (1 + 1)) (macDone s) := by
  have htag := h.toFresh.busyRun_mac h.fsm h.sponge hop
  rw [macDone, macFn, ← tagSqueeze_fst]
  exact htag.trans (busyRun_tagged_tag h.busy h.valid (by rw [hop]; decide) (by rw [hop]; decide))

theorem KeyStart.busyRun_wrap {s : State} (h : KeyStart s) (hop : cmdqOp s = 0x1) :
    BusyRun s (tagCycles (blockCount s.aadLen.toNat) (blockCount s.msgLen.toNat) + (1 + 1)) (wrapDone s) := by
  have htag := h.toFresh.busyRun_aead h.fsm h.sponge (by rw [hop]; decide)
  have hrun := htag.trans (busyRun_tagged_tag h.busy h.valid (by rw [hop]; decide) (by rw [hop]; decide))
  rw [show (cmdqOp s == 0x2) = false by rw [hop]; decide, textResult_encrypt, tagSqueeze_fst] at hrun
  exact hrun

theorem KeyStart.busyRun_unwrap {s : State} (h : KeyStart s) (hop : cmdqOp s = 0x2) :
    BusyRun s (tagCycles (blockCount s.aadLen.toNat) (blockCount s.msgLen.toNat) + (16 + (1 + 1))) (unwrapDone s) := by
  have htag := h.toFresh.busyRun_aead h.fsm h.sponge (by rw [hop]; decide)
  have hrun := htag.trans
    (busyRun_tagged_verdict (by rw [tagSqueeze_fst, length_tagOf]) h.busy h.valid hop h.diff)
  have hmax := msgLen_of_validate_ok h.valid (show cmdqOp s ≠ 0x4 by rw [hop]; decide)
  have hover : (s.mem.writeBytes msgBase (textResult true s).1).writeBytes msgBase (List.replicate s.msgLen.toNat 0) =
      s.mem.writeBytes msgBase (List.replicate s.msgLen.toNat 0) := by
    refine Memory.writeBytes_writeBytes h.wf ?_ fun i hi => bufferOffset_msg ?_
    · rw [textResult_decrypt, length_decryptText, length_msgOperand, List.length_replicate]
    · rw [List.length_replicate] at hi
      omega
  rw [show (cmdqOp s == 0x2) = true by rw [hop]; decide, State.writeMsg, hover, textResult_decrypt,
    tagSqueeze_fst] at hrun
  rw [unwrapDone_eq]
  exact hrun

theorem Inv.keyStart {s : State} (h : Inv s) (hb : s.busy = true) (hv : validate s.cmdq s = .ok) :
    KeyStart { s with fsm := .key } :=
  { toFresh := h.fresh hb .key
    fsm := rfl
    sponge := h.hidden.1
    valid := hv
    wf := h.mem }

/-- A command of the key takes one cycle in CHECK, the cycles to its tag, and those of its end. -/
theorem latency_of_keyed {s : State} (hv : validate s.cmdq s = .ok) (hop : cmdqOp s ≠ 0x4) :
    latency s = 1 + (tagCycles (if cmdqOp s = 0x3 then 0 else blockCount s.aadLen.toNat) (blockCount s.msgLen.toNat) +
      ((if cmdqOp s = 0x2 then 16 else 0) + (1 + 1))) := by
  have hrounds : params.rounds + 1 = 91 := rfl
  have hreads : params.tlenFix / rb + (params.tlenFix / rb - 1) * params.rounds = 91 * 7 + 1 := rfl
  rw [latency, hv]
  simp only [validLatency, if_neg hop, hreads, hrounds, tagCycles]
  omega

theorem latency_of_clear {s : State} (hv : validate s.cmdq s = .ok) (hop : cmdqOp s = 0x4) :
    latency s = 1 + (320 + 1) := by
  rw [latency, hv]
  exact if_pos hop

theorem latency_of_not_ok {s : State} (hv : validate s.cmdq s ≠ .ok) : latency s = 1 + 1 := by
  rw [latency]
  cases hv' : validate s.cmdq s with
  | ok => exact absurd hv' hv
  | fail | badHashBitLen => rfl

theorem completeStep_of_ok {w : Word} {s : State} (hv : validate w s = .ok) :
    completeStep w s = complete (outputs (opField w) s).2 (outputs (opField w) s).1 := by
  rw [completeStep, hv]

/-- A command of the key that CHECK lets through, by cases on the opcode. -/
theorem busyRun_keyed {s : State} (h : Inv s) (hb : s.busy = true) (hv : validate s.cmdq s = .ok)
    (hop4 : cmdqOp s ≠ 0x4) : BusyRun s (latency s) (completeStep s.cmdq s) := by
  have hcheck := h.busyRun_check hb
  have hstart := h.keyStart hb hv
  rw [if_pos hv, if_neg hop4] at hcheck
  rw [completeStep_of_ok hv, latency_of_keyed hv hop4]
  obtain hop | hop | hop | hop :
      cmdqOp s = 0x1 ∨ cmdqOp s = 0x2 ∨ cmdqOp s = 0x3 ∨ cmdqOp s = 0x4 := opField_of_validate_ok hv
  · have hend := hcheck.trans (hstart.busyRun_wrap hop)
    rw [show opField s.cmdq = 0x1 from hop, hop]
    exact hend
  · have hend := hcheck.trans (hstart.busyRun_unwrap hop)
    rw [show opField s.cmdq = 0x2 from hop, hop]
    exact hend
  · have hend := hcheck.trans (hstart.busyRun_mac hop)
    rw [show opField s.cmdq = 0x3 from hop, hop]
    exact hend
  · exact absurd hop hop4

/-- Every accepted command runs, busy, to the state of its completion step. -/
theorem busyRun_command {s : State} (h : Inv s) (hb : s.busy = true) :
    BusyRun s (latency s) (completeStep s.cmdq s) := by
  by_cases hv : validate s.cmdq s = .ok
  · by_cases hop : cmdqOp s = 0x4
    · rw [latency_of_clear hv hop, completeStep_of_ok hv, show opField s.cmdq = 0x4 from hop]
      exact busyRun_clear h hb hv hop
    · exact busyRun_keyed h hb hv hop
  · rw [latency_of_not_ok hv]
    exact busyRun_turnedAway h hb hv

/-- Settles O60. -/
theorem datapathRefinesCompletion : Obligations.DatapathRefinesCompletion := by
  refine ⟨fun s h hb => ?_, fun s s' hop hv haad hmsg => ?_⟩
  · obtain ⟨hend, hbusy⟩ := busyRun_command h hb
    rw [execIsTheCompletionStep s.cmdq s (h.cmdqBusy hb), hend]
    exact ⟨rfl, hbusy⟩
  · rw [latency, latency, cmdqOp, cmdqOp, hop, hv, haad, hmsg]

end Sys2Proof.Machine
end

section
/-!
The control commands NOP and CLEAR (44_control R230, R232, R233). CLEAR's completion record stands over memory in which
every byte of the two buffers reads 0; a canonical memory lists nothing else, so CLEAR empties it as reset does.
-/

namespace Sys2Proof.Machine

/-! ## NOP (44_control R230) -/

/-- Settles O24: NOP's arm of `exec` answers the state it was given. -/
theorem nopChangesNothing : Obligations.NopChangesNothing := fun _ _ => rfl

/-! ## CLEAR (44_control R232, R233) -/

theorem exec_clear_eq (tlen : Byte) (s : State) :
    exec (.clear tlen) s = .next (complete .success (clearEffects s)) := rfl

/-- Outside the buffers a canonical memory reads 0. -/
theorem Memory.read_outside_buffers {m : Memory} {lo a : Nat} (h : Memory.wfFrom lo m = true)
    (ha : ¬bufferOffset a = true) : m.read a = 0 := by
  induction m generalizing lo with
  | nil => rfl
  | cons c rest ih =>
    obtain ⟨b, v⟩ := c
    obtain ⟨-, hbuf, -, hrest⟩ := Memory.wfFrom_cons.1 h
    have hne : b ≠ a := fun hba => ha (hba ▸ hbuf)
    rw [Memory.read, if_neg hne]
    exact ih hrest

/-- In any memory, CLEAR zeroizes the bytes of the two buffers and no other. -/
theorem read_clearEffects (s : State) (a : Nat) :
    (clearEffects s).mem.read a = if bufferOffset a = true then 0 else s.mem.read a := by
  rw [clearEffects_mem, Memory.read_zeroRange, Memory.read_zeroRange, ← ite_or]
  refine if_congr ?_ rfl rfl
  rw [bufferOffset_iff]
  exact Or.comm

/-- CLEAR empties a canonical memory, since every byte then reads 0. -/
theorem clearEffects_mem_eq_nil {s : State} (h : s.mem.wf = true) : (clearEffects s).mem = [] := by
  have hwf : (clearEffects s).mem.wf = true := (Wrote.clear (s := s) 0).mem_wf h
  refine canonicalMemoryIsUnique _ _ hwf rfl fun a => ?_
  rw [read_clearEffects, Memory.read_nil]
  split
  next => rfl
  next ha => exact Memory.read_outside_buffers h ha

/-- Settles O25. -/
theorem clearZeroizesInputs : Obligations.ClearZeroizesInputs := fun tlen s =>
  ⟨_, exec_clear_eq tlen s, complete_completed _ _, rfl, rfl, rfl, ⟨rfl, rfl, rfl, rfl⟩, read_clearEffects s⟩

/-- Settles O26: the completion record and CLEAR's effects write every field that the statement does not keep
from `s`, and memory, being canonical, is left empty. -/
theorem clearEqualsReset : Obligations.ClearEqualsReset := by
  intro tlen s h
  rw [exec_clear_eq, complete, zeroize, clearEffects_mem_eq_nil h.mem]
  rfl

end Sys2Proof.Machine
end

section
/-!
The exceptions chapter (60_exceptions R255, R258). A refused access is answered and stops nothing, so every step has a
next state. A STATUS read and a completion that race are two events of one order, and each order is a run: the read
sees STATUS before the completion record or after it.
-/

namespace Sys2Proof.Machine

/-! ## No state stops the machine (60_exceptions R250, R255) -/

/-- Settles O41. -/
theorem stepNeverStops : Obligations.StepNeverStops := fun s =>
  let ⟨t, hstep, _⟩ := step_spec s
  ⟨t, hstep⟩

/-! ## A STATUS read that races with a completion (60_exceptions R258) -/

/-- STATUS is readable in every state, busy or not (20_memory R70). -/
theorem memRead_status (s : State) : memRead s 0x014 4 = .ok (statusWord s) :=
  have hreg : regAt (0x014 : Offset).toNat = some .status := rfl
  memRead_reg hreg (accessible_reg_of_not_refused hreg rfl s)

theorem step_status_read {s : State} {rest : List Event} (hr : s.rst = false)
    (ha : s.agenda = .bus (.read 0x014 4) :: rest) :
    step s = .next { s with agenda := rest, reply := some { resp := .okay, rdata := some (statusWord s) } } := by
  rw [step_read hr ha, memRead_status, readReply]

/-- STATUS after a completion: BUSY 0, DONE 1 and an empty KEYMASK, whatever the command. -/
theorem statusWord_complete (code : ResultCode) (u : State) : statusWord (complete code u) = 2 := by
  rw [statusWord, complete_busy, complete_done, complete_keymask]
  decide

/-- The core's turn completes a pending command and touches neither `rst` nor the rest of the agenda. -/
theorem Pending.step_core {s : State} {rest : List Event} (h : Pending s) (ha : s.agenda = .core :: rest) :
    ∃ code u, step s = .next (complete code u) ∧ u.rst = false ∧ u.agenda = rest := by
  obtain ⟨code, u, hexec, hwrote⟩ := exec_completes h.cmdq { s with agenda := rest }
  obtain ⟨-, hrst, -, hagenda⟩ := hwrote.surroundings
  refine ⟨code, u, ?_, hrst.trans h.rst, hagenda⟩
  rw [step_of_agenda_core h.rst ha, coreTurn, if_pos h.busy, hexec]

/-- With the read first, it sees the state of the busy core. -/
theorem status_read_before_completion {s : State} (h : Pending s) :
    ∃ t, stateAfter { s with agenda := [.bus (.read 0x014 4), .core] } 1 = some t ∧
      ∃ v, t.reply = some { resp := .okay, rdata := some v } ∧ v.getLsbD 0 = true := by
  have hread := step_status_read (s := { s with agenda := [.bus (.read 0x014 4), .core] }) h.rst rfl
  refine ⟨_, stateAfter_succ hread 0, _, rfl, ?_⟩
  rw [getLsbD_statusWord, if_pos rfl, h.busy]

/-- With the core first, it sees the completion record. -/
theorem status_read_after_completion {s : State} (h : Pending s) :
    ∃ t, stateAfter { s with agenda := [.core, .bus (.read 0x014 4)] } 2 = some t ∧
      t.reply = some { resp := .okay, rdata := some 2 } := by
  have hpending : Pending { s with agenda := [.core, .bus (.read 0x014 4)] } := ⟨h.rst, h.busy, h.cmdq⟩
  obtain ⟨code, u, hcore, hrst, hagenda⟩ := hpending.step_core rfl
  have hread := step_status_read (s := complete code u) hrst hagenda
  rw [statusWord_complete] at hread
  exact ⟨_, (stateAfter_succ hcore 1).trans (stateAfter_succ hread 0), rfl⟩

/-- Settles O57: a busy state that meets the invariant holds a pending command. -/
theorem bothRaceOrdersAreRuns : Obligations.BothRaceOrdersAreRuns := fun _ hinv hr hb =>
  have hpending := hinv.pending hr hb
  ⟨status_read_before_completion hpending, status_read_after_completion hpending⟩

end Sys2Proof.Machine
end

section
/-!
Reset and hazards (70_reset R280, R281, R286). While `rst` is asserted a step is a change of `rst` or nothing. KEYMASK
is written by a KEY write at the port, which marks one word, and by a completion and the reset sequence, which clear it;
so a word that is not loaded since a completion stays unmarked, and the keyed commands fail.
-/

namespace Sys2Proof.Machine

/-! ## The `rst` input (70_reset R280, R281) -/

theorem step_of_rst {s : State} (hr : s.rst = true) : step s = resetTurn s := if_pos hr

theorem step_rst_change {s : State} {level : Bool} {rest : List Event} (hr : s.rst = false)
    (ha : s.agenda = .rst level :: rest) : step s = .next { s with rst := level, agenda := rest } := by
  rw [step, if_neg (by simp [hr]), runTurn, ha]

/-- An event that is no change of `rst` waits where it stands. -/
theorem takeRst_cons {e : Event} (he : ∀ level, e ≠ .rst level) (es : List Event) :
    takeRst (e :: es) = (takeRst es).map fun r => (r.1, e :: r.2) := by
  cases e with
  | rst level => exact absurd rfl (he level)
  | bus | core => rfl

theorem takeRst_eq_none {waiting : List Event} (hw : ∀ e ∈ waiting, ∀ level, e ≠ .rst level) :
    takeRst waiting = none := by
  induction waiting with
  | nil => rfl
  | cons e es ih =>
    obtain ⟨he, hes⟩ := List.forall_mem_cons.1 hw
    rw [takeRst_cons he, ih hes, Option.map_none]

theorem takeRst_append_rst {waiting : List Event} (hw : ∀ e ∈ waiting, ∀ level, e ≠ .rst level) (level : Bool)
    (rest : List Event) : takeRst (waiting ++ .rst level :: rest) = some (level, waiting ++ rest) := by
  induction waiting with
  | nil => rfl
  | cons e es ih =>
    obtain ⟨he, hes⟩ := List.forall_mem_cons.1 hw
    rw [List.cons_append, takeRst_cons he, ih hes, Option.map_some, List.cons_append]

/-- Settles O42. -/
theorem resetAbortsTheCommand : Obligations.ResetAbortsTheCommand := by
  refine ⟨fun s level rest => step_rst_change, fun s waiting rest hr hw => ?_⟩
  refine ⟨by rw [irq, hr]; rfl, fun ha => ?_, fun ha => ?_, fun ha => ?_⟩
  · rw [step_of_rst hr, resetTurn, ha, takeRst_eq_none hw]
  · rw [step_of_rst hr, resetTurn, ha, takeRst_append_rst hw]
  · rw [step_of_rst hr, resetTurn, ha, takeRst_append_rst hw]

/-! ## What writes KEYMASK (10_state R29; 43_aead R197) -/

theorem offset_of_regAt_key {a : Nat} {i : Fin 4} (h : regAt a = some (.key i)) : a = 0x040 + 4 * i.val := by
  simp only [regAt] at h
  split at h <;> cases h <;> rfl

theorem writeReg_keymask {r : Reg} {v : Word} {s t : State} (h : writeReg r v s = .next t) :
    t.keymask = s.keymask ∨ ∃ i, r = .key i ∧ t.keymask = markKey s.keymask i := by
  cases r with
  | key i => cases h; exact .inr ⟨i, rfl, rfl⟩
  | cmd =>
    obtain rfl := Host.Outcome.next.inj ((presentCommand_eq v s).symm.trans h)
    left
    split <;> rfl
  | irqStat => cases h; rw [acknowledge_eq]; exact .inl rfl
  | id | param0 | param1 | bufparam | status | result | irqEn | aadLen | msgLen | tag => cases h; exact .inl rfl

/-- A write at the port changes KEYMASK only as a 4-byte write to a key word of an idle core. -/
theorem memWrite_keymask {addr : Offset} {size : Nat} {v : Word} {s t : State}
    (h : memWrite addr size v s = .next t) :
    t.keymask = s.keymask ∨
      ∃ i : Fin 4, s.busy = false ∧ size = 4 ∧ addr.toNat = 0x040 + 4 * i.val ∧ t.keymask = markKey s.keymask i := by
  by_cases hacc : accessible s addr.toNat size = true
  case neg => cases (memWrite_refused hacc v).symm.trans h
  rw [memWrite, if_pos hacc] at h
  split at h
  case isFalse => cases h; exact .inl rfl
  next hlt =>
    obtain ⟨-, -, hwide, -⟩ := accessible_iff.1 hacc
    have hsize : size = 4 := hwide.resolve_left (Nat.not_le.2 hlt)
    cases hreg : regAt addr.toNat with
    | none => rw [hreg] at h; cases h
    | some r =>
      rw [hreg] at h
      refine (writeReg_keymask h).imp_right fun ⟨i, hr, hmark⟩ => ?_
      subst hr
      have hidle := accessible_idle hacc ((busyRefused_of_regAt hreg).2 (by simp))
      exact ⟨i, hidle, hsize, offset_of_regAt_key hreg, hmark⟩

theorem exec_keymask {i : Instr} {s t : State} (h : exec i s = .next t) : t.keymask = s.keymask ∨ t.keymask = 0 := by
  obtain ⟨-, -, rfl⟩ | ⟨code, u, rfl, -⟩ := exec_next_cases h
  · exact .inl rfl
  · exact .inr (complete_keymask code u)

theorem coreTurn_keymask {s t : State} (h : coreTurn s = .next t) : t.keymask = s.keymask ∨ t.keymask = 0 := by
  rw [coreTurn] at h
  split at h
  · exact exec_keymask h
  · cases h; exact .inl rfl

theorem resetTurn_keymask {s t : State} (h : resetTurn s = .next t) : t.keymask = s.keymask ∨ t.keymask = 0 := by
  rw [resetTurn] at h
  split at h <;> cases h
  · exact .inl rfl
  · exact .inr rfl
  · exact .inl rfl

/-- The inversion lemma of `step` for KEYMASK. -/
theorem step_keymask {s t : State} (h : step s = .next t) :
    (t.keymask = s.keymask ∨ t.keymask = 0) ∨ ∃ i, TakesKeyWrite i s ∧ t.keymask = markKey s.keymask i := by
  cases hr : s.rst with
  | true => exact .inl (resetTurn_keymask ((step_of_rst hr).symm.trans h))
  | false =>
    cases ha : s.agenda with
    | nil => exact .inl (coreTurn_keymask ((step_of_agenda_nil hr ha).symm.trans h))
    | cons e rest =>
      cases e with
      | core =>
        have hkept := coreTurn_keymask ((step_of_agenda_core hr ha).symm.trans h)
        exact .inl hkept
      | rst level => cases (step_rst_change hr ha).symm.trans h; exact .inl (.inl rfl)
      | bus tr =>
        cases tr with
        | read addr size => cases (step_read hr ha).symm.trans h; exact .inl (.inl rfl)
        | write addr size v =>
          obtain hw | ⟨u, hw, -⟩ := memWrite_cases addr size v { s with agenda := rest }
          · cases (step_write_error hr ha hw).symm.trans h; exact .inl (.inl rfl)
          · cases (step_write_okay hr ha hw).symm.trans h
            obtain hkept | ⟨i, hidle, rfl, haddr, hmark⟩ := memWrite_keymask hw
            · exact .inl (.inl hkept)
            · exact .inr ⟨i, ⟨hr, hidle, addr, v, rest, haddr, ha⟩, hmark⟩

theorem keyBit_of_step {s t : State} {k : Fin 4} (h : step s = .next t) (hbit : t.keymask.getLsbD k.val = true) :
    s.keymask.getLsbD k.val = true ∨ TakesKeyWrite k s := by
  obtain (hkept | hzero) | ⟨i, htake, hmark⟩ := step_keymask h
  · exact .inl (hkept ▸ hbit)
  · simp [hzero] at hbit
  · rw [hmark, getLsbD_markKey, Bool.or_eq_true, decide_eq_true_eq] at hbit
    obtain rfl | hold := hbit
    · exact .inr htake
    · exact .inl hold

/-! ## Reloading the key (70_reset R286) -/

theorem Completed.keymask_eq_zero {code : ResultCode} {t : State} (h : Completed code t) : t.keymask = 0 := by
  obtain ⟨-, -, -, -, -, -, hmask, -⟩ := h
  exact hmask

/-- By induction on the number of steps: the first one leaves the bit unset, since it takes no write to KEYk. -/
theorem keyBit_unset_of_run {k : Fin 4} {n : Nat} {t u : State} (ht : ¬t.keymask.getLsbD k.val = true)
    (hrun : stateAfter t n = some u) (hno : ∀ m < n, ∀ x, stateAfter t m = some x → ¬TakesKeyWrite k x) :
    ¬u.keymask.getLsbD k.val = true := by
  induction n generalizing t with
  | zero => cases hrun; exact ht
  | succ n ih =>
    obtain ⟨t', hstep⟩ := stepNeverStops t
    have hnow : ¬TakesKeyWrite k t := hno 0 n.succ_pos t rfl
    have ht' : ¬t'.keymask.getLsbD k.val = true := fun hbit => (keyBit_of_step hstep hbit).elim ht hnow
    refine ih ht' ((stateAfter_succ hstep n).symm.trans hrun) fun m hm x hx => ?_
    exact hno (m + 1) (Nat.succ_lt_succ hm) x ((stateAfter_succ hstep m).trans hx)

/-- Without one of the key words the keyed commands fail (43_aead R192). -/
theorem keyed_commands_fail_of_missing_key {u : State} {k : Fin 4} (hk : ¬u.keymask.getLsbD k.val = true)
    (tlen : Byte) : ∀ j ∈ [Instr.wrap tlen, .unwrap tlen, .mac tlen],
      ∃ u', exec j u = .next u' ∧ Completed .fail u' ∧ NoOutput u u' := by
  have hall : ∀ i : Fin 4, (0xF#4).getLsbD i.val = true := by decide
  have hmask : u.keymask ≠ 0xF := fun h => hk (h ▸ hall k)
  obtain ⟨hkeyed, hmac, -⟩ := failedChecksDecideTheCode tlen u
  intro j hj
  simp only [List.mem_cons, List.not_mem_nil, or_false] at hj
  obtain rfl | rfl | rfl := hj
  · exact (hkeyed _ (by simp)).1 (.inl hmask)
  · exact (hkeyed _ (by simp)).1 (.inl hmask)
  · exact hmac (.inl hmask)

/-- Settles O35: a completion leaves KEYMASK 0, and a run without a write to KEYk leaves bit `k` unset. -/
theorem keyMustBeReloaded : Obligations.KeyMustBeReloaded := by
  refine ⟨fun s t k => keyBit_of_step, fun i s t hnop hexec n u k hrun hno tlen => ?_⟩
  obtain ⟨code, -, hdone⟩ := everyCompletionZeroizes i s t hnop hexec
  have ht : ¬t.keymask.getLsbD k.val = true := by simp [hdone.keymask_eq_zero]
  exact keyed_commands_fail_of_missing_key (keyBit_unset_of_run ht hrun hno) tlen

end Sys2Proof.Machine
end
